-- ==== Sys2Proof/Word.lean ====
section
/-! DEFINITION. The word types of the block: a byte is 8 bits (spec 00, R13), the checksum and the two header fields are
16 bits (spec 00 R7, 20 R37). All quantities are unsigned (spec 00, R14). -/

namespace Sys2Proof

/-- One byte of the stream (R13). -/
abbrev Byte := BitVec 8

/-- A 16-bit value: the CRC register, the checksum, a header field (R7, R37). -/
abbrev Word := BitVec 16

end Sys2Proof
end

