-- ==== Sys2Proof/Config.lean ====
section
/-! DEFINITION. What an implementation fixes: the named constants of spec 00 R7 and R8 (held by name because the source's
literals are unaudited, spec 93 U6), the open parameters of R9 to R12, and the one free value of the model. -/

namespace Sys2Proof

namespace Config

/-- `PREFIX`, the eight ASCII bytes of `KBSP v1:` (R7, R54). -/
def framePrefix : List Byte := [0x4B, 0x42, 0x53, 0x50, 0x20, 0x76, 0x31, 0x3A]

/-- `PREFIX_LEN` (R7). -/
def prefixLen : Nat := 8

/-- `HEADER_LEN` (R7). -/
def headerLen : Nat := 12

/-- `PAYLOAD_MAX`, what a sender may declare (R7); the block delivers less (R125). -/
def payloadMax : Nat := 112

/-- `EOM`, the end marker `0D 0A` (R7, R59). -/
def eom : List Byte := [0x0D, 0x0A]

/-- `EOM_LEN` (R7). -/
def eomLen : Nat := 2

/-- `CKSUM_LEN` (R7). -/
def cksumLen : Nat := 2

/-- `RESYNC_BYTE`, the line boundary (R7, R96). -/
def resyncByte : Byte := 0x0A

/-- `MAXLEN = PREFIX_LEN + PAYLOAD_MAX + EOM_LEN = 122` (R7; spec 90, C1 to C3). -/
def maxLen : Nat := prefixLen + payloadMax + eomLen

/-- `CRC_POLY` (R7). -/
def crcPoly : Word := 0x1021

/-- `CRC_WIDTH` (R7), the width of `Word`. -/
def crcWidth : Nat := 16

/-- `MIN_FRAME = 16` (R8). -/
def minFrame : Nat := headerLen + cksumLen + eomLen

/-- `TRAILER_REGION = 4` (R8). -/
def trailerRegion : Nat := cksumLen + eomLen

/-- `MAX_COMPLETE = 121`, the longest buffer that is kept or can complete (R8). -/
def maxComplete : Nat := maxLen - 1

/-- `PAYLOAD_DELIVERABLE_MAX = 105` (R8, R125). -/
def payloadDeliverableMax : Nat := maxComplete - minFrame

/-- `BUF_CELLS = 122` (R8, R23). -/
def bufCells : Nat := maxLen

/-- Width of the flattened record port (R64). -/
abbrev outBits : Nat := 881

/-- FREE VALUE (log 8): what the bits of the flattened `OUT` word carry that R64 leaves unspecified, one word for each
value of the model's counter `State.freeIdx`. It has no body, so nothing can be proved of its value. -/
opaque outUnspecified : Nat → BitVec outBits

end Config

/-- The open parameter `KNOWN_IDS` (R12), a total predicate on 16-bit ids, written as plain data: a finite set of known
ids, or all ids but a finite set (R120: a host may set it to the constant true, `allBut []`). Log 3. -/
inductive KnownIds where
  | only (ids : List Word)
  | allBut (ids : List Word)
  deriving DecidableEq, Repr

/-- The open parameters of R9 to R12. They are fixed when the block is built and never change (R148, R152). Log 2. -/
structure Params where
  /-- `CRC_INIT` (R9). -/
  crcInit : Word
  /-- `CRC_REFIN` (R10). -/
  crcRefIn : Bool
  /-- `CRC_REFOUT` (R10). -/
  crcRefOut : Bool
  /-- `CRC_XOROUT` (R10). -/
  crcXorOut : Word
  /-- `CRC_FIELD_BE` (R11). -/
  crcFieldBE : Bool
  /-- `KNOWN_IDS` (R12). -/
  knownIds : KnownIds
  deriving DecidableEq, Repr

namespace Config

/-- Profile K, the defaults of R9 to R11; the spec gives no default for `KNOWN_IDS`, and the model takes the predicate
`t = 1` that spec 95 uses in its vectors (log 3). -/
def profileK : Params :=
  { crcInit := 0x0000, crcRefIn := true, crcRefOut := true, crcXorOut := 0x0000, crcFieldBE := false,
    knownIds := .only [1] }

/-- Profile F, the alternative reading of R10. -/
def profileF : Params :=
  { crcInit := 0xFFFF, crcRefIn := false, crcRefOut := false, crcXorOut := 0x0000, crcFieldBE := false,
    knownIds := .only [1] }

end Config

end Sys2Proof
end

