-- ==== Sys2Proof/Syntax.lean ====
section
/-! DEFINITION. The instruction set: one constructor per row of spec/opcode_table.json, and the words that the host
presents on the block's two input ports (spec 30, R61 to R63, R67). -/

namespace Sys2Proof

/-- The operations of the block. The `data` field of `NOP`, `CLEAR` and the reserved words is ignored, so all 256 words
of such a row are one command (R70, R107) and its constructor carries nothing. -/
inductive Instr where
  /-- `NOP`: no byte is available (R94). -/
  | nop
  /-- `FEED c`: present the next stream byte (R95). -/
  | feed (c : Byte)
  /-- `CLEAR`: return the assembler to `Empty` (R106). -/
  | clear
  /-- A command word with `op = 11` (R107). -/
  | reserved
  /-- `CRCUPD acc, data`: advance the CRC register by one byte (R81). -/
  | crcUpd (acc : Word) (data : Byte)
  /-- `CRCFIN acc`: turn the register into the checksum value (R82). -/
  | crcFin (acc : Word)
  deriving DecidableEq, Repr

/-- An operation of the command port (R61 (a)), as opposed to one of the stateless CRC port (R61 (d)). -/
def Instr.isCommand : Instr → Bool
  | .nop => true
  | .feed _ => true
  | .clear => true
  | .reserved => true
  | .crcUpd _ _ => false
  | .crcFin _ => false

/-- The input ports. `CRCUPD` and `CRCFIN` have no opcode bits: each has its own operand wires (R67). -/
inductive Port where
  | command
  | crcUpd
  | crcFin
  deriving DecidableEq, Repr

/-- The width of a port's word (R62, R67). -/
def Port.width : Port → Nat
  | .command => 10
  | .crcUpd => 24
  | .crcFin => 16

/-- A number offered to a port, before it is known to fit the port's wires. -/
structure RawWord where
  port  : Port
  value : Nat
  deriving DecidableEq, Repr

/-- A word on a port's wires (R62, R67). -/
inductive PortWord where
  | command (w : BitVec 10)
  | crcUpd (u : BitVec 24)
  | crcFin (f : BitVec 16)
  deriving DecidableEq, Repr

/-- What the host does to the block in one step: present a word (R61) or give the reset event (R147). -/
inductive Stimulus where
  | word (w : PortWord)
  | reset
  deriving DecidableEq, Repr

end Sys2Proof
end

