-- ==== Sys2Proof/WellFormed.lean ====
section
/-! DEFINITION. The checks on terms whose type does not already carry them: a number offered to a port must fit the
port's wires (spec 30, R62, R67), and the type table must have the two points the source fixes (spec 00, R12). An `Instr`
needs no check: its operands are bit vectors of the widths of R62 and R67, and every value of them is legal (R13, R67). -/

namespace Sys2Proof

/-- Every operand value of every operation is legal (R13, R63, R67). -/
def Instr.wellFormed : Instr → Bool
  | .nop => true
  | .feed _ => true
  | .clear => true
  | .reserved => true
  | .crcUpd _ _ => true
  | .crcFin _ => true

/-- The number fits the port's word (R62: 10 bits; R67: 24 and 16 bits). -/
def RawWord.wellFormed (r : RawWord) : Bool :=
  decide (r.value < 2 ^ r.port.width)

/-- The predicate that the data of `KnownIds` stands for (R12). -/
def KnownIds.knows : KnownIds → Word → Bool
  | .only ids, t => ids.contains t
  | .allBut ids, t => !ids.contains t

/-- The two points of `KNOWN_IDS` that the source fixes (R12; spec 93, U3: hypotheses of a claim, not a check the block
makes: R120 lets a host choose the constant true). -/
def Params.wellFormed (p : Params) : Bool :=
  p.knownIds.knows 1 && !p.knownIds.knows 9999

end Sys2Proof
end

