-- ==== Sys2Proof/Decode.lean ====
section
/-! DEFINITION. Decoding and encoding of the port words, from the encoding tables of spec 30 (R62, R63, R67, R69, R70). -/

namespace Sys2Proof

/-- A row of the opcode map of R63: a word `w` selects it when `w & mask = pattern`. -/
structure OpcodeRow where
  mnemonic : String
  mask     : BitVec 10
  pattern  : BitVec 10
  deriving DecidableEq, Repr

/-- The word selects the row (R63). -/
def selects (w : BitVec 10) (r : OpcodeRow) : Bool :=
  w &&& r.mask == r.pattern

/-- The opcode map of the command port (R63). -/
def opcodeMap : List OpcodeRow :=
  [⟨"NOP", 0x300, 0x000⟩, ⟨"FEED", 0x300, 0x100⟩, ⟨"CLEAR", 0x300, 0x200⟩, ⟨"RESERVED", 0x300, 0x300⟩]

/-- `CMD[9:8]` (R62). -/
def cmdOp (w : BitVec 10) : BitVec 2 := w.extractLsb' 8 2

/-- `CMD[7:0]` (R62). -/
def cmdData (w : BitVec 10) : Byte := w.extractLsb' 0 8

/-- A command word is decoded by its `op` field alone; `data` counts for `FEED` only (R62, R63, R70). -/
def decodeCommand (w : BitVec 10) : Instr :=
  if cmdOp w = 0b00 then .nop
  else if cmdOp w = 0b01 then .feed (cmdData w)
  else if cmdOp w = 0b10 then .clear
  else .reserved

/-- `U[23:8] = acc`, `U[7:0] = data` (R67). -/
def decodeCrcUpd (u : BitVec 24) : Instr :=
  .crcUpd (u.extractLsb' 8 16) (u.extractLsb' 0 8)

/-- Every word on a port selects one operation (R63: the command decoder is total; R67: every operand word is legal). -/
def decode : PortWord → Instr
  | .command w => decodeCommand w
  | .crcUpd u => decodeCrcUpd u
  | .crcFin f => .crcFin f

/-- Why a number is no word of a port. -/
inductive DecodeReject where
  /-- The number has bits above the port's width (R62, R67). -/
  | tooWide (port : Port) (value : Nat)
  deriving DecidableEq, Repr

/-- The wires that a number puts on its port, rejected by name where it does not fit them. -/
def RawWord.toPortWord (r : RawWord) : Except DecodeReject PortWord :=
  if r.wellFormed then
    .ok (match r.port with
      | .command => .command (BitVec.ofNat 10 r.value)
      | .crcUpd => .crcUpd (BitVec.ofNat 24 r.value)
      | .crcFin => .crcFin (BitVec.ofNat 16 r.value))
  else .error (.tooWide r.port r.value)

/-- Decoding of any number on any port. -/
def decodeRaw (r : RawWord) : Except DecodeReject Instr :=
  r.toPortWord.map decode

/-- The command word with the given fields (R62). -/
def cmdWord (op : BitVec 2) (data : Byte) : BitVec 10 := op ++ data

/-- The word of an instruction. `NOP` and `CLEAR` have the canonical words of R70; the spec names no canonical reserved
word, and the model takes `0x300`, the row's `match` (log 10). -/
def encode : Instr → PortWord
  | .nop => .command (cmdWord 0b00 0)
  | .feed c => .command (cmdWord 0b01 c)
  | .clear => .command (cmdWord 0b10 0)
  | .reserved => .command (cmdWord 0b11 0)
  | .crcUpd acc data => .crcUpd (acc ++ data)
  | .crcFin acc => .crcFin acc

/-- The port an `nbits`-bit number of the opcode table is offered to. A number of up to two bytes is a command word if it
fits 10 bits and a `CRCFIN` operand otherwise; three bytes are a `CRCUPD` operand. The table gives the rows of different
ports no bits that tell them apart, so the 1024 smallest `CRCFIN` operands have no number here (log 9). -/
def tablePort (nbits w : Nat) : Option Port :=
  if nbits ≤ 16 then (if w < 2 ^ 10 then some .command else some .crcFin)
  else if nbits ≤ 24 then some .crcUpd
  else none

/-- The port word that a number of the opcode table stands for. -/
def tableWord (nbits w : Nat) : Option PortWord :=
  (tablePort nbits w).bind fun port => (RawWord.toPortWord ⟨port, w⟩).toOption

/-- What the decoder reads from an `nbits`-bit number of the opcode table. -/
def decodeTableWord (nbits w : Nat) : Option Instr :=
  (tableWord nbits w).map decode

end Sys2Proof
end

