-- ==== Sys2Proof/Machine/State.lean ====
section
/-! DEFINITION. The state of the block (spec 10, R20 to R34), the values of its output ports (spec 30, R64, R65), and the
reasons a step can stop: there are none (spec 60, R129). -/

namespace Sys2Proof.Machine

/-- The state of the Frame Assembler as the sum type of R20. `bytes` is `buf[0..len)` in arrival order; the cells of the
frame buffer at index `len` and above, and all cells while `Empty` or `Corrupt`, hold no defined value and do not exist
here (R23, R26; spec 93, U4). The registers `st`, `len` and `buf` of R21 to R23 are read off it in Machine/Flags.lean and
Machine/Memory.lean (log 1). -/
inductive Assembler where
  | empty
  | accumulating (bytes : List Byte)
  | corrupt
  deriving DecidableEq, Repr

/-- The cause of a step, exactly one per command (R65). -/
inductive Cause where
  | idle
  | accum
  | swallow
  | resync
  | corruptOversize
  | corruptPrefix
  | frameOk
  | dropRunt
  | dropCrc
  | dropUnknown
  | cleared
  | illegalCmd
  deriving DecidableEq, Repr

/-- The record delivered for a good frame (R64). -/
structure Record where
  typeId      : Word
  declaredLen : Word
  payloadLen  : BitVec 7
  lenMatch    : Bool
  payload     : List Byte
  deriving DecidableEq, Repr

/-- The two values on the result port (R61 (b), R64, R65). -/
structure Report where
  cause : Cause
  out   : Option Record
  deriving DecidableEq, Repr

end Sys2Proof.Machine

namespace Sys2Proof.Machine

/-- Everything the spec gives the block (`asm`, R20), with its parameters and its ports as plain data.

* `params`: the open parameters (R9 to R12), fixed when the block is built; no step changes them (R152; log 2).
* `asm`: the Frame Assembler, the only state the spec gives the block (R20).
* `input`: what the host has yet to present, in its order (R29, R61; log 4).
* `result`: the result port during the latest command; the block reads it nowhere (R32 (b); log 6).
* `crcUpdOut`, `crcFinOut`: the result wires of the two CRC operations (R67; log 7).
* `freeIdx`: the model's own index into the free values of the record port's unspecified bits (R64; log 8). -/
structure State where
  params    : Params
  asm       : Assembler
  input     : List Stimulus
  result    : Option Report
  crcUpdOut : Option Word
  crcFinOut : Option Word
  freeIdx   : Nat
  deriving DecidableEq, Repr

/-- The block raises no trap, exception or error, and no command can fail (R129): there is no fault. -/
inductive Fault
  deriving DecidableEq, Repr

/-- Every command is accepted in every state (R138, R161), so no step of the model refuses. -/
inductive Refusal where
  /-- Raised by an arm of `exec` whose instruction has no meaning yet; no arm raises it. Safe: the machine stops. -/
  | notModelled (mnemonic : String)
  deriving DecidableEq, Repr

/-- After reset: `Empty`, `len = 0`, no cell defined (R34). The parameters are the spec's defaults (R9 to R11; log 2, log
3), nothing is presented and no port has carried a value yet (log 4, log 6, log 7). -/
def State.reset : State :=
  { params    := Config.profileK
    asm       := .empty
    input     := []
    result    := none
    crcUpdOut := none
    crcFinOut := none
    freeIdx   := 0 }

end Sys2Proof.Machine
end

