-- ==== Sys2Proof/Machine/Memory.lean ====
section
/-! DEFINITION. The frame buffer as a memory (spec 20, R35, R36, R43, R44): the one address space of the block, cells 0 to
121. It is the view of `Assembler` that lists the defined cells; a cell it does not list has no value (R23, R26). -/

namespace Sys2Proof.Machine

/-- The defined cells of the frame buffer, by rising index. -/
abbrev Memory := List Host.Cell

/-- The canonical form: indices strictly rise. (An unlisted cell has no value, so no listed cell repeats one.) -/
abbrev Memory.wf (m : Memory) : Prop := m.Pairwise (fun x y => x.1 < y.1)

/-- The value of a cell, if it is defined. -/
def Memory.read (m : Memory) (a : Nat) : Option Byte := m.lookup a

/-- `MemWrite(a, 1, v)` (R15). -/
def Memory.write : Memory → Nat → Byte → Memory
  | [], a, v => [(a, v)]
  | x :: m, a, v =>
    if a < x.1 then (a, v) :: x :: m
    else if a = x.1 then (a, v) :: m
    else x :: Memory.write m a v

/-- Bytes laid out from index `k` on. -/
def Memory.layout : Nat → List Byte → Memory
  | _, [] => []
  | k, b :: bs => (k, b) :: Memory.layout (k + 1) bs

/-- `buf[0..len)`, the bytes of the frame in progress; none in `Empty` and `Corrupt` (R24, R26). -/
def Assembler.bytes : Assembler → List Byte
  | .empty => []
  | .accumulating bs => bs
  | .corrupt => []

/-- The register `buf` (R23): the cells `buf[0..len)`. -/
def State.buf (s : State) : Memory := Memory.layout 0 s.asm.bytes

/-- One cell of the frame buffer, if it is defined. -/
def State.readCell (s : State) (a : Nat) : Option Byte := s.buf.read a

end Sys2Proof.Machine
end

