-- ==== Sys2Proof/Machine/Flags.lean ====
section
/-! DEFINITION. The bit-level views of the state and of the output ports: the registers `st` and `len` (spec 10, R21, R22),
the status word (R31, R66), the cause code (R65) and the flattened record port (R64). The block has no arithmetic flags
(R30). -/

namespace Sys2Proof.Machine

/-- `st`: `Empty = 00`, `Accumulating = 01`, `Corrupt = 10` (R21). -/
def Assembler.st : Assembler → BitVec 2
  | .empty => 0b00
  | .accumulating _ => 0b01
  | .corrupt => 0b10

/-- The register `st` (R21). -/
def State.st (s : State) : BitVec 2 := s.asm.st

/-- The number of retained bytes (R22). -/
def Assembler.count (a : Assembler) : Nat := a.bytes.length

/-- The register `len` (R22). -/
def State.len (s : State) : BitVec 7 := BitVec.ofNat 7 s.asm.count

/-- `STATUS[8:7] = st`, `STATUS[6:0] = len` (R31, R66). -/
def State.status (s : State) : BitVec 9 := s.st ++ s.len

/-- The 4-bit code of a cause (R65). -/
def Cause.code : Cause → BitVec 4
  | .idle => 0
  | .accum => 1
  | .swallow => 2
  | .resync => 3
  | .corruptOversize => 4
  | .corruptPrefix => 5
  | .frameOk => 6
  | .dropRunt => 7
  | .dropCrc => 8
  | .dropUnknown => 9
  | .cleared => 10
  | .illegalCmd => 11

/-- Bit `i` of the flattened record port (R64). A bit that R64 leaves unspecified is the filler's. -/
def outBit (filler : BitVec Config.outBits) (out : Option Record) (i : Nat) : Bool :=
  match out with
  | none => if i = 0 then false else filler.getLsbD i
  | some r =>
    if i = 0 then true
    else if i ≤ 16 then r.typeId.getLsbD (i - 1)
    else if i ≤ 32 then r.declaredLen.getLsbD (i - 17)
    else if i ≤ 39 then r.payloadLen.getLsbD (i - 33)
    else if i = 40 then r.lenMatch
    else
      match r.payload[(i - 41) / 8]? with
      | some b => b.getLsbD ((i - 41) % 8)
      | none => filler.getLsbD i

/-- The 881-bit word `OUT` (R64). -/
def flattenOut (filler : BitVec Config.outBits) (out : Option Record) : BitVec Config.outBits :=
  BitVec.ofFnLE fun i : Fin Config.outBits => outBit filler out i.val

/-- The word `OUT` on the result port, once a command has driven it. The unspecified bits are a free value that every
command draws anew (R64; spec 93, U5; log 8). -/
def State.outWord (s : State) : Option (BitVec Config.outBits) :=
  s.result.map fun r => flattenOut (Config.outUnspecified s.freeIdx) r.out

/-- The cause code on the result port, once a command has driven it (R65). -/
def State.causeWord (s : State) : Option (BitVec 4) :=
  s.result.map fun r => r.cause.code

end Sys2Proof.Machine
end

