-- ==== Sys2Proof/Machine/Operands.lean ====
section
/-! DEFINITION. Operand assembly (spec 30, R76) and the bit and byte operations of spec 00, R14 and R15. -/

namespace Sys2Proof.Machine

/-- `rev8(b)`: bit `i` of the result is bit `7-i` of `b` (R14). -/
def rev8 (b : Byte) : Byte := b.reverse

/-- `rev16(v)`: bit `i` of the result is bit `15-i` of `v` (R14). -/
def rev16 (v : Word) : Word := v.reverse

/-- `zext_16(v)` of a byte (R14). -/
def zext16 (b : Byte) : Word := b.setWidth 16

/-- The low byte of a 16-bit field. -/
def loByte (v : Word) : Byte := v.extractLsb' 0 8

/-- The high byte of a 16-bit field. -/
def hiByte (v : Word) : Byte := v.extractLsb' 8 8

/-- A 16-bit field as it is stored low byte first (R37). -/
def leBytes (v : Word) : List Byte := [loByte v, hiByte v]

/-- A 16-bit field as it is stored high byte first (R38). -/
def beBytes (v : Word) : List Byte := [hiByte v, loByte v]

/-- `buf[i]` of a completed frame. Every use has `i < L` (R44), so the value given past the end reaches no result: the
lemmas of Laws/Completion.lean and the statements speak of `frame[i]?` (log 15). -/
def frameByte (frame : List Byte) (i : Nat) : Byte := frame.getD i 0

/-- `MemRead(a, 2) = buf[a+1] ‖ buf[a]` (R15). -/
def memRead16 (frame : List Byte) (a : Nat) : Word := frameByte frame (a + 1) ++ frameByte frame a

/-- `MemReadBE(a, 2) = buf[a] ‖ buf[a+1]` (R15). -/
def memReadBE16 (frame : List Byte) (a : Nat) : Word := frameByte frame a ++ frameByte frame (a + 1)

/-- The byte sequence `buf[a..b)` (R15). -/
def span (frame : List Byte) (a b : Nat) : List Byte := (frame.drop a).take (b - a)

end Sys2Proof.Machine
end

