-- ==== Sys2Proof/Machine/Ops.lean ====
section
/-! DEFINITION. The shared ways a command ends (spec 00, R16) and the tests of the append arm (spec 41, R98 to R101). The
block has no exceptions: a soft failure is `corruptWith` or `dropWith`, which save nothing (spec 60, R131, R132), and the
return from `Corrupt` is `toEmpty` (R133). -/

namespace Sys2Proof.Machine

/-- What an instruction answers. -/
abbrev Answer := Host.Outcome State Fault Refusal

/-- The end of every command: the next assembler state, and the values of the result port (R61 (b)). -/
def State.endWith (s : State) (a : Assembler) (cause : Cause) (out : Option Record) : State :=
  { s with asm := a, result := some ⟨cause, out⟩, freeIdx := s.freeIdx + 1 }

/-- The command changes no state and delivers nothing. -/
def State.keep (s : State) (cause : Cause) : State := s.endWith s.asm cause none

/-- `corrupt <cause>`: `st <- Corrupt; len <- 0`, nothing delivered (R16, R131). -/
def State.corruptWith (s : State) (cause : Cause) : State := s.endWith .corrupt cause none

/-- `st <- Empty; len <- 0`, nothing delivered: the end of `CLEAR` (R106) and of a resynchronisation (R96, R133). -/
def State.toEmpty (s : State) (cause : Cause) : State := s.endWith .empty cause none

/-- `drop <cause>`: `st <- Empty; len <- 0`, nothing delivered (R16, R132). -/
def State.dropWith (s : State) (cause : Cause) : State := s.endWith .empty cause none

/-- `deliver <record>`: `st <- Empty; len <- 0`, the record delivered (R16, R121). -/
def State.deliver (s : State) (r : Record) : State := s.endWith .empty .frameOk (some r)

/-- The reset event: the effect of `CLEAR` without an output (R147); the parameters stay (R148). Log 12. -/
def State.resetEvent (s : State) : State := { s with asm := .empty, result := none }

/-- The oversize test on the resulting length (R99). -/
def isOversize (buf : List Byte) : Bool := decide (Config.maxLen ≤ buf.length)

/-- The prefix test: `buf[0..min(n, 8))` equals the first `min(n, 8)` bytes of `PREFIX` (R100). -/
def prefixMatches (buf : List Byte) : Bool :=
  buf.take (min buf.length Config.prefixLen) == Config.framePrefix.take (min buf.length Config.prefixLen)

/-- The end-marker test: the last two bytes are `0D 0A` (R101). -/
def endsWithEom (buf : List Byte) : Bool :=
  buf.drop (buf.length - Config.eomLen) == Config.eom

end Sys2Proof.Machine
end

