-- ==== Sys2Proof/Machine/Checksum.lean ====
section
/-! DEFINITION. The Checksum Unit (spec 40, R80 to R84) its reflected form (R86), and
the meanings of `CRCUPD` and `CRCFIN`. It holds no state
(R27): its operations read the parameters alone and drive only their own result wires (R67, R87). -/

namespace Sys2Proof.Machine

/-- One shift of the register; the bit shifted out of bit 15 selects the XOR of the polynomial (R81). -/
def crcShift (r : Word) : Word :=
  if r.getLsbD 15 then (r <<< 1) ^^^ Config.crcPoly else r <<< 1

/-- The byte as it enters the register (R81). -/
def crcByte (p : Params) (data : Byte) : Byte := if p.crcRefIn then rev8 data else data

/-- `CRCUPD acc, data` (R81). -/
def crcUpdate (p : Params) (acc : Word) (data : Byte) : Word :=
  Nat.iterate crcShift 8 (acc ^^^ (zext16 (crcByte p data) <<< 8))

/-- `CRCFIN acc` (R82). -/
def crcFinish (p : Params) (acc : Word) : Word :=
  (if p.crcRefOut then rev16 acc else acc) ^^^ p.crcXorOut

/-- The register after a span, first byte first, from `CRC_INIT` (R83). -/
def crcRegister (p : Params) (bytes : List Byte) : Word := bytes.foldl (crcUpdate p) p.crcInit

/-- `COMPUTE span` (R83). -/
def compute (p : Params) (bytes : List Byte) : Word := crcFinish p (crcRegister p bytes)

/-- The reflected register of R86: one shift to the right. -/
def crcShiftReflected (q : Word) : Word := if q.getLsbD 0 then (q >>> 1) ^^^ 0x8408 else q >>> 1

/-- One byte into the reflected register (R86). -/
def crcUpdateReflected (q : Word) (d : Byte) : Word := Nat.iterate crcShiftReflected 8 (q ^^^ zext16 d)

/-- The reflected register after a span, from `rev16(CRC_INIT)` (R86). -/
def crcRegisterReflected (p : Params) (bytes : List Byte) : Word :=
  bytes.foldl crcUpdateReflected (rev16 p.crcInit)

/-- `CRCUPD acc, data`: the result is on its own wires and no other state is written (R81, R87). -/
def execCrcUpd (acc : Word) (data : Byte) (s : State) : Answer :=
  .next { s with crcUpdOut := some (crcUpdate s.params acc data) }

/-- `CRCFIN acc`: the result is on its own wires and no other state is written (R82, R87). -/
def execCrcFin (acc : Word) (s : State) : Answer :=
  .next { s with crcFinOut := some (crcFinish s.params acc) }

end Sys2Proof.Machine
end

