-- ==== Sys2Proof/Machine/Completion.lean ====
section
/-! DEFINITION. Frame completion (spec 42, R113 to R122): the second half of a `FEED` whose end-marker test succeeds. -/

namespace Sys2Proof.Machine

/-- `type_id` of a frame of at least 16 bytes (R115). -/
def frameTypeId (frame : List Byte) : Word := memRead16 frame Config.prefixLen

/-- `declared_len` (R116). -/
def frameDeclaredLen (frame : List Byte) : Word := memRead16 frame (Config.prefixLen + 2)

/-- `payload = frame[12..L-4)`: the received length delimits it, not the declared one (R117). -/
def framePayload (frame : List Byte) : List Byte :=
  span frame Config.headerLen (frame.length - Config.trailerRegion)

/-- `payload_len = L - 16` (R117). -/
def framePayloadLen (frame : List Byte) : BitVec 7 := BitVec.ofNat 7 (frame.length - Config.minFrame)

/-- The checksum field, in the byte order of `CRC_FIELD_BE` (R118, R38). -/
def frameField (p : Params) (frame : List Byte) : Word :=
  if p.crcFieldBE then memReadBE16 frame (frame.length - Config.trailerRegion)
  else memRead16 frame (frame.length - Config.trailerRegion)

/-- The span the checksum covers: prefix, header fields and payload (R119; spec 90, C4). -/
def frameSpan (frame : List Byte) : List Byte := span frame 0 (frame.length - Config.trailerRegion)

/-- The record of a good frame (R121). -/
def frameRecord (frame : List Byte) : Record :=
  { typeId      := frameTypeId frame
    declaredLen := frameDeclaredLen frame
    payloadLen  := framePayloadLen frame
    lenMatch    := frameDeclaredLen frame == (framePayloadLen frame).setWidth 16
    payload     := framePayload frame }

/-- The four fates of a completed frame (R113). -/
inductive Verdict where
  | runt
  | badChecksum
  | unknownType
  | good
  deriving DecidableEq, Repr

/-- The tests in their order: runt (R114), checksum (R119), type lookup (R120), delivery (R121); R122. -/
def judge (p : Params) (frame : List Byte) : Verdict :=
  if frame.length < Config.minFrame then .runt
  else if compute p (frameSpan frame) != frameField p frame then .badChecksum
  else if p.knownIds.knows (frameTypeId frame) then .good
  else .unknownType

/-- The completion arm: the assembler is `Empty` whatever the tests decide (R113). -/
def State.complete (s : State) (frame : List Byte) : State :=
  match judge s.params frame with
  | .runt => s.dropWith .dropRunt
  | .badChecksum => s.dropWith .dropCrc
  | .unknownType => s.dropWith .dropUnknown
  | .good => s.deliver (frameRecord frame)

end Sys2Proof.Machine
end

