-- ==== Sys2Proof/Machine/FrameAssembler.lean ====
section
/-! DEFINITION. The Frame Assembler (spec 41): the meanings of `NOP`, `FEED`, `CLEAR` and the reserved command words. -/

namespace Sys2Proof.Machine

/-- `NOP`: no state is written (R94). -/
def execNop (s : State) : Answer := .next (s.keep .idle)

/-- `CLEAR`: `st <- Empty; len <- 0` in every state (R106). -/
def execClear (s : State) : Answer := .next (s.toEmpty .cleared)

/-- A reserved command word: no state is written (R107). -/
def execReserved (s : State) : Answer := .next (s.keep .illegalCmd)

/-- The append arm of `FEED`, with the byte already appended to the buffer (R98): the first of R99, R100, R101, R102 whose
condition holds (R103). -/
def State.afterAppend (s : State) (buf : List Byte) : State :=
  if isOversize buf then s.corruptWith .corruptOversize
  else if !prefixMatches buf then s.corruptWith .corruptPrefix
  else if endsWithEom buf then s.complete buf
  else s.endWith (.accumulating buf) .accum none

/-- The `Corrupt` arm of `FEED`: the byte is discarded, and a line boundary resynchronises (R96, R97). -/
def State.whileCorrupt (s : State) (c : Byte) : State :=
  if c = Config.resyncByte then s.toEmpty .resync else s.keep .swallow

/-- `FEED c` (R95): `Empty` is a zero-length buffer (R25). -/
def execFeed (c : Byte) (s : State) : Answer :=
  match s.asm with
  | .empty => .next (s.afterAppend [c])
  | .accumulating bs => .next (s.afterAppend (bs ++ [c]))
  | .corrupt => .next (s.whileCorrupt c)

end Sys2Proof.Machine
end

