-- ==== Sys2Proof/Machine/Dispatch.lean ====
section
/-! DEFINITION. One arm per instruction. -/

namespace Sys2Proof.Machine

def exec (i : Instr) (s : State) : Host.Outcome State Fault Refusal :=
  match i with
  | .nop => Sys2Proof.Machine.execNop s
  | .feed c => Sys2Proof.Machine.execFeed c s
  | .clear => Sys2Proof.Machine.execClear s
  | .reserved => Sys2Proof.Machine.execReserved s
  | .crcUpd acc data => Sys2Proof.Machine.execCrcUpd acc data s
  | .crcFin acc => Sys2Proof.Machine.execCrcFin acc s

end Sys2Proof.Machine
end

