-- ==== Sys2Proof/Machine/Step.lean ====
section
/-! DEFINITION. One step of the block (spec 00, R17): it takes the stimulus the host presents and carries it out whole. -/

namespace Sys2Proof.Machine

/-- The block executes the word presented to it, or takes the reset event (R147); while the host presents nothing it holds
its state (R29, R161; log 5). -/
def step (s : State) : Host.Outcome State Fault Refusal :=
  match s.input with
  | [] => .next s
  | .word w :: rest => exec (decode w) { s with input := rest }
  | .reset :: rest => .next (State.resetEvent { s with input := rest })

/-- The state in which the host presents, next, the word that an `nbits`-bit number of the opcode table stands for; the
state itself where it stands for none. The block loads no program: the host presents each word (R29; log 4, log 9). -/
def State.withFetchWord (s : State) (nbits w : Nat) : State :=
  match tableWord nbits w with
  | some pw => { s with input := .word pw :: s.input }
  | none => s

end Sys2Proof.Machine
end

