-- ==== Sys2Proof/Machine/Run.lean ====
section
/-! DEFINITION. Runs (spec 70, R162): a finite sequence of operations from a start state, with the sequence of
`(cause, out)` pairs, one per command, and the final state. -/

namespace Sys2Proof.Machine

/-- What an operation adds to the results of a run: a command adds its report, a CRC operation adds nothing (R162, R87). -/
def reportsOf (i : Instr) (t : State) : List Report := if i.isCommand then t.result.toList else []

/-- The run of a sequence of operations, each in the state its predecessor left (R46). -/
def run : List Instr → State → Option (List Report × State)
  | [], s => some ([], s)
  | i :: is, s =>
    match exec i s with
    | .next t => (run is t).map fun q => (reportsOf i t ++ q.1, q.2)
    | .fault _ => none
    | .refused _ => none

/-- `FEEDS b0 b1 ... bk` (R75). -/
def feeds (bytes : List Byte) : List Instr := bytes.map .feed

/-- The report of a step that delivers nothing. -/
def silent (cause : Cause) : Report := ⟨cause, none⟩

end Sys2Proof.Machine
end

