-- ==== Sys2Proof/Machine/Frame.lean ====
section
/-! DEFINITION. The wire format as a sender writes it (spec 30, R53 to R60), used to state which frames the block delivers
(R128), and the pseudo-instructions of R75. -/

namespace Sys2Proof.Machine

/-- Prefix, message-type id, declared length and payload: the bytes the checksum covers (R53, R58). -/
def frameBody (id dlen : Word) (payload : List Byte) : List Byte :=
  Config.framePrefix ++ leBytes id ++ leBytes dlen ++ payload

/-- The checksum field as it stands in a frame (R58, R38). -/
def fieldBytes (p : Params) (v : Word) : List Byte := if p.crcFieldBE then beBytes v else leBytes v

/-- `frame_encode_raw(id, dlen, payload)` (R60). -/
def frameEncodeRaw (p : Params) (id dlen : Word) (payload : List Byte) : List Byte :=
  frameBody id dlen payload ++ fieldBytes p (compute p (frameBody id dlen payload)) ++ Config.eom

/-- `frame_encode(id, payload)` (R60). -/
def frameEncode (p : Params) (id : Word) (payload : List Byte) : List Byte :=
  frameEncodeRaw p id (BitVec.ofNat 16 payload.length) payload

/-- An end-marker pair at offsets `i`, `i + 1` of a frame (R128 (b), R154). -/
abbrev eomAt (f : List Byte) (i : Nat) : Prop := f[i]? = some 0x0D ∧ f[i + 1]? = some 0x0A

/-- `COMPUTE [b0 ... bk]` as its `CRCUPD`s and final `CRCFIN`, from the register `acc` (R75). -/
def computeOps (p : Params) : Word → List Byte → List Instr
  | acc, [] => [.crcFin acc]
  | acc, b :: bs => .crcUpd acc b :: computeOps p (crcUpdate p acc b) bs

/-- The pseudo-instructions of R75. -/
inductive Pseudo where
  | feeds (bytes : List Byte)
  | frame (id : Word) (payload : List Byte)
  | frameRaw (id dlen : Word) (payload : List Byte)
  | compute (bytes : List Byte)
  deriving DecidableEq, Repr

/-- The operations a pseudo-instruction stands for (R75). -/
def expand (p : Params) : Pseudo → List Instr
  | .feeds bs => feeds bs
  | .frame id payload => feeds (frameEncode p id payload)
  | .frameRaw id dlen payload => feeds (frameEncodeRaw p id dlen payload)
  | .compute bs => computeOps p p.crcInit bs

end Sys2Proof.Machine
end

