-- ==== Sys2Proof/Machine/AsmText.lean ====
section
/-! DEFINITION. The assembler syntax of spec 30, R74 and R75: one line of text to the operations it stands for. Letter case
of mnemonics and hexadecimal digits, and the places of blanks, are log 18. -/

namespace Sys2Proof.Machine

/-- What a line of a listing says. -/
inductive AsmLine where
  | blank
  | instr (i : Instr)
  | pseudo (p : Pseudo)
  /-- The reset event at the head of a program (R75, R147). -/
  | reset
  deriving DecidableEq, Repr

/-- Text without its leading blanks. -/
def skipBlanks : List Char → List Char
  | ' ' :: cs => skipBlanks cs
  | '\t' :: cs => skipBlanks cs
  | cs => cs

/-- Nothing but blanks and a comment is left of the line (R74: `;` starts a comment). -/
def atLineEnd (cs : List Char) : Bool :=
  match skipBlanks cs with
  | [] => true
  | c :: _ => c == ';'

/-- The text after an expected mark, blanks before it skipped. -/
def afterMark (mark : Char) (cs : List Char) : Option (List Char) :=
  match skipBlanks cs with
  | c :: rest => if c = mark then some rest else none
  | [] => none

/-- The value of a hexadecimal digit. -/
def hexValue (c : Char) : Option Nat :=
  let n := c.toNat
  if 48 ≤ n ∧ n ≤ 57 then some (n - 48)
  else if 65 ≤ n ∧ n ≤ 70 then some (n - 55)
  else if 97 ≤ n ∧ n ≤ 102 then some (n - 87)
  else none

/-- A byte as two hexadecimal digits. -/
def hexByte : List Char → Option (Byte × List Char)
  | a :: b :: rest => do
    let x ← hexValue a
    let y ← hexValue b
    some (BitVec.ofNat 8 (16 * x + y), rest)
  | _ => none

/-- The characters of `'\r'`, `'\n'` and of a printable character between single quotes (R74). -/
def quotedByte : List Char → Option (Byte × List Char)
  | '\\' :: 'r' :: '\'' :: rest => some (0x0D, rest)
  | '\\' :: 'n' :: '\'' :: rest => some (0x0A, rest)
  | c :: '\'' :: rest =>
    if 32 ≤ c.toNat ∧ c.toNat ≤ 126 then some (BitVec.ofNat 8 c.toNat, rest) else none
  | _ => none

/-- The `<byte>` of `FEED` and `CRCUPD` (R74). -/
def byteOperand (cs : List Char) : Option (Byte × List Char) :=
  match skipBlanks cs with
  | '0' :: 'x' :: rest => hexByte rest
  | '\'' :: rest => quotedByte rest
  | _ => none

/-- The `<acc>` of the CRC operations, `0x` and four hexadecimal digits (R74). -/
def accOperand (cs : List Char) : Option (Word × List Char) :=
  match skipBlanks cs with
  | '0' :: 'x' :: rest => do
    let h ← hexByte rest
    let l ← hexByte h.2
    some (h.1 ++ l.1, l.2)
  | _ => none

/-- Decimal digits, from the value read so far. -/
def decimalFrom : Nat → List Char → Nat × List Char
  | n, [] => (n, [])
  | n, c :: cs =>
    if 48 ≤ c.toNat ∧ c.toNat ≤ 57 then decimalFrom (10 * n + (c.toNat - 48)) cs else (n, c :: cs)

/-- A 16-bit number in decimal, as the ids and lengths of `FRAME` and `FRAMERAW` are written. -/
def decimalOperand (cs : List Char) : Option (Word × List Char) :=
  match skipBlanks cs with
  | [] => none
  | c :: rest =>
    if 48 ≤ c.toNat ∧ c.toNat ≤ 57 then
      let r := decimalFrom 0 (c :: rest)
      if r.1 < 2 ^ 16 then some (BitVec.ofNat 16 r.1, r.2) else none
    else none

/-- Hexadecimal bytes between blanks, as long as there are any. `fuel` bounds the bytes; the length of the text is
enough. -/
def hexBytes : Nat → List Char → List Byte × List Char
  | 0, cs => ([], cs)
  | fuel + 1, cs =>
    match hexByte (skipBlanks cs) with
    | some (b, rest) =>
      let r := hexBytes fuel rest
      (b :: r.1, r.2)
    | none => ([], cs)

/-- The characters of `"text"` after its opening quote, printable ones only. -/
def textBytes : List Char → Option (List Byte × List Char)
  | [] => none
  | c :: cs =>
    if c.toNat = 34 then some ([], cs)
    else if 32 ≤ c.toNat ∧ c.toNat ≤ 126 then
      (textBytes cs).map fun r => (BitVec.ofNat 8 c.toNat :: r.1, r.2)
    else none

/-- The operand of `FEEDS` (R75). -/
def feedsOperand (cs : List Char) : Option (List Byte × List Char) :=
  match skipBlanks cs with
  | [] => none
  | c :: rest =>
    if c.toNat = 34 then textBytes rest
    else
      match hexBytes (c :: rest).length (c :: rest) with
      | ([], _) => none
      | r => some r

/-- Bytes in brackets (R75). -/
def bracketedBytes (cs : List Char) : Option (List Byte × List Char) := do
  let inside ← afterMark '[' cs
  let r := hexBytes inside.length inside
  let rest ← afterMark ']' r.2
  some (r.1, rest)

/-- The mnemonic at the head of the text: its capital letters, and what follows. -/
def splitWord : List Char → List Char × List Char
  | [] => ([], [])
  | c :: cs =>
    if 65 ≤ c.toNat ∧ c.toNat ≤ 90 then
      let r := splitWord cs
      (c :: r.1, r.2)
    else ([], c :: cs)

/-- The line is complete: what was read of it stands, if only blanks and a comment follow. -/
def finishLine (r : AsmLine × List Char) : Option AsmLine := if atLineEnd r.2 then some r.1 else none

/-- Operands of `CRCUPD` (R74). -/
def crcUpdOperands (cs : List Char) : Option (AsmLine × List Char) := do
  let a ← accOperand cs
  let t ← afterMark ',' a.2
  let b ← byteOperand t
  some (.instr (.crcUpd a.1 b.1), b.2)

/-- Operands of `FRAME` (R75). -/
def frameOperands (cs : List Char) : Option (AsmLine × List Char) := do
  let id ← decimalOperand cs
  let t ← afterMark ',' id.2
  let b ← bracketedBytes t
  some (.pseudo (.frame id.1 b.1), b.2)

/-- Operands of `FRAMERAW` (R75). -/
def frameRawOperands (cs : List Char) : Option (AsmLine × List Char) := do
  let id ← decimalOperand cs
  let t ← afterMark ',' id.2
  let n ← decimalOperand t
  let u ← afterMark ',' n.2
  let b ← bracketedBytes u
  some (.pseudo (.frameRaw id.1 n.1 b.1), b.2)

/-- A line by its mnemonic (R74, R75). -/
def asmOperands (word cs : List Char) : Option (AsmLine × List Char) :=
  if word = ['N', 'O', 'P'] then some (.instr .nop, cs)
  else if word = ['C', 'L', 'E', 'A', 'R'] then some (.instr .clear, cs)
  else if word = ['R', 'E', 'S', 'E', 'T'] then some (.reset, cs)
  else if word = ['F', 'E', 'E', 'D'] then (byteOperand cs).map fun r => (.instr (.feed r.1), r.2)
  else if word = ['C', 'R', 'C', 'F', 'I', 'N'] then (accOperand cs).map fun r => (.instr (.crcFin r.1), r.2)
  else if word = ['C', 'R', 'C', 'U', 'P', 'D'] then crcUpdOperands cs
  else if word = ['F', 'E', 'E', 'D', 'S'] then (feedsOperand cs).map fun r => (.pseudo (.feeds r.1), r.2)
  else if word = ['F', 'R', 'A', 'M', 'E'] then frameOperands cs
  else if word = ['F', 'R', 'A', 'M', 'E', 'R', 'A', 'W'] then frameRawOperands cs
  else if word = ['C', 'O', 'M', 'P', 'U', 'T', 'E'] then
    (bracketedBytes cs).map fun r => (.pseudo (.compute r.1), r.2)
  else none

/-- One line of assembler text; `none` where it is no line of R74 or R75. -/
def parseLine (cs : List Char) : Option AsmLine :=
  let t := skipBlanks cs
  if atLineEnd t then some .blank
  else
    let w := splitWord t
    (asmOperands w.1 w.2).bind finishLine

/-- The stimuli the host gives for a line: the words of its operations, or the reset event. -/
def assembleLine (p : Params) : AsmLine → List Stimulus
  | .blank => []
  | .instr i => [.word (encode i)]
  | .pseudo q => (expand p q).map fun i => .word (encode i)
  | .reset => [.reset]

end Sys2Proof.Machine
end

