-- ==== Sys2Proof/Safety.lean ====
section
/-! DEFINITION. The terms in which claims speak of a good state and of a completed frame (spec 10 R24, spec 41 R98 to R101).
Every step answers a next state (R129, R161), so a safe run is one whose states meet the invariants. -/

namespace Sys2Proof.Machine

/-- R24 (b), (d), (e), (f) for the bytes of an accumulating buffer. -/
structure BufferInv (bytes : List Byte) : Prop where
  /-- R24 (b): `1 <= len`. -/
  nonempty : 1 ≤ bytes.length
  /-- R24 (b), (f): `len <= 121`. -/
  bounded : bytes.length ≤ Config.maxComplete
  /-- R24 (d). -/
  startsRight : prefixMatches bytes = true
  /-- R24 (e). -/
  stillOpen : endsWithEom bytes = false

/-- The invariants of R24; (a) and (c) are the shape of the sum type. -/
def Assembler.Inv : Assembler → Prop
  | .empty => True
  | .accumulating bytes => BufferInv bytes
  | .corrupt => True

/-- The invariants of R24. -/
def State.Inv (s : State) : Prop := s.asm.Inv

/-- The invariants of R24, clause by clause, in terms of the registers `st`, `len` and `buf`. -/
structure RegisterInv (s : State) : Prop where
  /-- R24 (a). -/
  emptyView : (s.st = 0b00 ↔ s.asm = .empty) ∧ (s.st = 0b00 → s.len = 0)
  /-- R24 (b): `1 <= len <= 121` and `bytes = buf[0..len)`. -/
  accumulatingView : (s.st = 0b01 ↔ ∃ bytes, s.asm = .accumulating bytes) ∧
    ∀ bytes, s.asm = .accumulating bytes →
      1 ≤ s.len.toNat ∧ s.len.toNat ≤ 121 ∧ bytes.length = s.len.toNat ∧ ∀ i, s.readCell i = bytes[i]?
  /-- R24 (c). -/
  corruptView : (s.st = 0b10 ↔ s.asm = .corrupt) ∧ (s.st = 0b10 → s.len = 0)
  /-- R24 (d). -/
  prefixView : s.st = 0b01 → ∀ i, i < min s.len.toNat 8 → s.readCell i = Config.framePrefix[i]?
  /-- R24 (e). -/
  openView : s.st = 0b01 → 2 ≤ s.len.toNat →
    ¬ (s.readCell (s.len.toNat - 2) = some 0x0D ∧ s.readCell (s.len.toNat - 1) = some 0x0A)
  /-- R24 (f). -/
  lenView : s.len.toNat ≤ 121

/-- `bs` is what a `FEED` in the append arm appends to: nothing in `Empty`, the buffer in `Accumulating` (R25, R98). -/
def Assembler.appendsTo : Assembler → List Byte → Prop
  | .empty, bs => bs = []
  | .accumulating bytes, bs => bs = bytes
  | .corrupt, _ => False

/-- The first `min(n, 8)` bytes of the buffer are those of `PREFIX` (R24 (d), R100). -/
def agreesWithPrefix (buf : List Byte) : Prop := buf.take (min buf.length 8) = Config.framePrefix.take (min buf.length 8)

/-- A `FEED` of `0A` completes the frame: the appended buffer is `frame`, neither the oversize test nor the prefix test
fires, and the byte before the `0A` is `0D` (R99 to R101). -/
def State.completesWith (s : State) (frame : List Byte) : Prop :=
  ∃ bs, s.asm.appendsTo bs ∧ frame = bs ++ [0x0A] ∧ bs.getLast? = some 0x0D ∧ frame.length < 122 ∧ agreesWithPrefix frame

/-- No end-marker pair stands anywhere in the buffer (spec 95, V1). -/
def Assembler.holdsNoEom (a : Assembler) : Prop := ∀ i, ¬ eomAt a.bytes i

/-- The operation ends in the assembler state `a` and reports one of the causes. -/
def endsIn (i : Instr) (s : State) (a : Assembler) (causes : List Cause) : Prop :=
  ∃ t r, exec i s = .next t ∧ t.asm = a ∧ t.result = some r ∧ r.cause ∈ causes

/-- The causes of a completed frame (R95, R113). -/
def completionCauses : List Cause := [.frameOk, .dropRunt, .dropCrc, .dropUnknown]

end Sys2Proof.Machine
end

