-- ==== Sys2Proof/Certificates/Slice0/Obligations.lean ====
section
/-! DEFINITION. The statements for the provers. Each docstring names the rule of the spec it formalises. -/

open Sys2Proof Sys2Proof.Machine

/-- R7, R8: the named constants. -/
def Obligations.ConstantsAsSpecified : Prop :=
  Config.framePrefix = [0x4B, 0x42, 0x53, 0x50, 0x20, 0x76, 0x31, 0x3A] ∧ Config.prefixLen = 8 ∧
  Config.headerLen = 12 ∧ Config.payloadMax = 112 ∧ Config.eom = [0x0D, 0x0A] ∧ Config.eomLen = 2 ∧
  Config.cksumLen = 2 ∧ Config.resyncByte = 0x0A ∧ Config.maxLen = 122 ∧ Config.crcPoly = 0x1021 ∧
  Config.crcWidth = 16 ∧ Word = BitVec Config.crcWidth ∧
  Config.minFrame = 16 ∧ Config.trailerRegion = 4 ∧ Config.maxComplete = 121 ∧
  Config.payloadDeliverableMax = 105 ∧ Config.bufCells = 122

/-- R34: what reset leaves; an unspecified cell has no value in the model. -/
def Obligations.ResetState : Prop :=
  State.reset.st = 0b00 ∧ State.reset.asm = .empty ∧ State.reset.len = 0 ∧
  (∀ a, State.reset.readCell a = none) ∧ State.reset.status = 0

/-- R24 at reset, in the sum type and in the registers. -/
def Obligations.InvariantHoldsAtReset : Prop :=
  State.reset.Inv ∧ RegisterInv State.reset ∧ State.reset.asm.holdsNoEom

/-- R147, R148: the reset event empties the assembler and keeps the parameters. That it can be given during a run, and that
it leaves the result port without a value, is the model's choice (log 12). -/
def Obligations.ResetEventEmptiesAssembler : Prop :=
  ∀ (s : State) (rest : List Stimulus), s.input = .reset :: rest →
    step s = .next { s with input := rest, asm := .empty, result := none }

/-- R17, R29: a step carries out the one word presented; without one the block holds its state (R161; log 4, log 5). -/
def Obligations.StepRunsPresentedWord : Prop :=
  (∀ (s : State) (w : PortWord) (rest : List Stimulus), s.input = .word w :: rest →
    step s = exec (decode w) { s with input := rest }) ∧
  (∀ s : State, s.input = [] → step s = .next s)

/-- The host's fetch word is the next word presented, and the step after it is that instruction's (log 9). -/
def Obligations.FetchWordRunsItsInstruction : Prop :=
  ∀ (s : State) (nbits w : Nat) (i : Instr), decodeTableWord nbits w = some i →
    step (s.withFetchWord nbits w) = exec i s

/-- R161: every command finishes, and the block never refuses one. In states outside R24 this is the model's choice (log 13). -/
def Obligations.EveryOperationAnswers : Prop :=
  (∀ (i : Instr) (s : State), ∃ t, exec i s = .next t) ∧ (∀ s : State, ∃ t, step s = .next t)

/-- R62, R63, R67: words written out bit by bit from the encoding tables. -/
def Obligations.DecodeOfWrittenWords : Prop :=
  decode (.command 0b0000000000) = .nop ∧ decode (.command 0b0010101011) = .nop ∧
  decode (.command 0b0101001011) = .feed 0x4B ∧ decode (.command 0b1011111111) = .clear ∧
  decode (.command 0b1101010101) = .reserved ∧
  decode (.crcUpd 0b000100100011010001010110) = .crcUpd 0x1234 0x56 ∧
  decode (.crcFin 0b0101110101010111) = .crcFin 0x5D57

/-- R63, R70: every command word selects exactly one row of the opcode map, and the row decides the command; only `FEED`
looks at `data`. The canonical words of `NOP` and `CLEAR`. -/
def Obligations.CommandWordSelectsOneRow : Prop :=
  encode .nop = .command 0x000 ∧ encode .clear = .command 0x200 ∧
  ∀ w : BitVec 10, (opcodeMap.filter (selects w)).length = 1 ∧
    (w &&& 0x300 = 0x000 → decode (.command w) = .nop) ∧
    (w &&& 0x300 = 0x100 → decode (.command w) = .feed (w.extractLsb' 0 8)) ∧
    (w &&& 0x300 = 0x200 → decode (.command w) = .clear) ∧
    (w &&& 0x300 = 0x300 → decode (.command w) = .reserved)

/-- R62, R67, R70: decoding the encoding of an instruction gives it back, and encoding what a word decodes to gives the
word back up to the ignored `data` field of `NOP`, `CLEAR` and the reserved words (the canonical reserved word is log 10). -/
def Obligations.EncodeDecodeRoundTrip : Prop :=
  (∀ i : Instr, i.wellFormed = true ∧ decode (encode i) = i) ∧
  (∀ u : BitVec 24, encode (decode (.crcUpd u)) = .crcUpd u) ∧
  (∀ f : BitVec 16, encode (decode (.crcFin f)) = .crcFin f) ∧
  (∀ w : BitVec 10, encode (decode (.command w)) =
    .command (if w.extractLsb' 8 2 = 0b01 then w else w &&& 0x300))

/-- R94: `NOP` keeps `st`, `len` and `buf`, and reports `IDLE`. -/
def Obligations.NopKeepsState : Prop :=
  ∀ s : State, exec .nop s =
    .next { s with result := some ⟨.idle, none⟩, freeIdx := s.freeIdx + 1 }

/-- R106: `CLEAR` empties the assembler in every state. -/
def Obligations.ClearEmpties : Prop :=
  ∀ s : State, exec .clear s =
    .next { s with asm := .empty, result := some ⟨.cleared, none⟩, freeIdx := s.freeIdx + 1 }

/-- R107: a reserved word keeps the state and reports `ILLEGAL_CMD`. -/
def Obligations.ReservedKeepsState : Prop :=
  ∀ s : State, exec .reserved s =
    .next { s with result := some ⟨.illegalCmd, none⟩, freeIdx := s.freeIdx + 1 }

/-- R96: a line boundary fed while `Corrupt`. -/
def Obligations.FeedResynchronises : Prop :=
  ∀ s : State, s.asm = .corrupt → exec (.feed 0x0A) s =
    .next { s with asm := .empty, result := some ⟨.resync, none⟩, freeIdx := s.freeIdx + 1 }

/-- R97: any other byte fed while `Corrupt`. -/
def Obligations.FeedSwallows : Prop :=
  ∀ (s : State) (c : Byte), s.asm = .corrupt → c ≠ 0x0A → exec (.feed c) s =
    .next { s with asm := .corrupt, result := some ⟨.swallow, none⟩, freeIdx := s.freeIdx + 1 }

/-- R99: the oversize test, before any other test and whatever the byte; in the states of R24 it fires exactly when 121
bytes are held. -/
def Obligations.FeedOversize : Prop :=
  ∀ (s : State) (bs : List Byte) (c : Byte), s.asm.appendsTo bs →
    (122 ≤ bs.length + 1 → exec (.feed c) s =
      .next { s with asm := .corrupt, result := some ⟨.corruptOversize, none⟩, freeIdx := s.freeIdx + 1 }) ∧
    (s.Inv → (122 ≤ bs.length + 1 ↔ bs.length = 121))

/-- R100: the prefix test; in the states of R24 it fires exactly when one of the first eight bytes is not its own of
`PREFIX`. -/
def Obligations.FeedBadPrefix : Prop :=
  ∀ (s : State) (bs : List Byte) (c : Byte), s.asm.appendsTo bs → bs.length + 1 < 122 →
    (¬ agreesWithPrefix (bs ++ [c]) → exec (.feed c) s =
      .next { s with asm := .corrupt, result := some ⟨.corruptPrefix, none⟩, freeIdx := s.freeIdx + 1 }) ∧
    (s.Inv → (¬ agreesWithPrefix (bs ++ [c]) ↔ bs.length + 1 ≤ 8 ∧ Config.framePrefix[bs.length]? ≠ some c))

/-- R102: where no test fires, the byte is kept. -/
def Obligations.FeedContinues : Prop :=
  ∀ (s : State) (bs : List Byte) (c : Byte), s.asm.appendsTo bs → bs.length + 1 < 122 →
    agreesWithPrefix (bs ++ [c]) → ¬ (bs.getLast? = some 0x0D ∧ c = 0x0A) →
    exec (.feed c) s = .next { s with asm := .accumulating (bs ++ [c]), result := some ⟨.accum, none⟩,
                                      freeIdx := s.freeIdx + 1 }

/-- R114: a frame that completes with fewer than 16 bytes; it has at least 10 (R105). -/
def Obligations.FeedDropsRunt : Prop :=
  ∀ (s : State) (frame : List Byte), s.completesWith frame → frame.length < 16 →
    10 ≤ frame.length ∧ exec (.feed 0x0A) s =
      .next { s with asm := .empty, result := some ⟨.dropRunt, none⟩, freeIdx := s.freeIdx + 1 }

/-- R118, R119, R122: a checksum that differs from the field, in either byte order of the field, whatever the type id. -/
def Obligations.FeedDropsBadChecksum : Prop :=
  ∀ (s : State) (frame : List Byte) (x y : Byte), s.completesWith frame → 16 ≤ frame.length →
    frame[frame.length - 4]? = some x → frame[frame.length - 3]? = some y →
    compute s.params (frame.take (frame.length - 4)) ≠ (if s.params.crcFieldBE then x ++ y else y ++ x) →
    exec (.feed 0x0A) s =
      .next { s with asm := .empty, result := some ⟨.dropCrc, none⟩, freeIdx := s.freeIdx + 1 }

/-- R115, R120: a good checksum and a type id that the table does not know. -/
def Obligations.FeedDropsUnknownType : Prop :=
  ∀ (s : State) (frame : List Byte) (x y b8 b9 : Byte), s.completesWith frame → 16 ≤ frame.length →
    frame[frame.length - 4]? = some x → frame[frame.length - 3]? = some y →
    frame[8]? = some b8 → frame[9]? = some b9 →
    compute s.params (frame.take (frame.length - 4)) = (if s.params.crcFieldBE then x ++ y else y ++ x) →
    s.params.knownIds.knows (b9 ++ b8) = false →
    exec (.feed 0x0A) s =
      .next { s with asm := .empty, result := some ⟨.dropUnknown, none⟩, freeIdx := s.freeIdx + 1 }

/-- R115 to R117, R121: the record of a good frame. The declared length takes no part in any test (R116, R124). -/
def Obligations.FeedDeliversRecord : Prop :=
  ∀ (s : State) (frame : List Byte) (x y b8 b9 b10 b11 : Byte), s.completesWith frame → 16 ≤ frame.length →
    frame[frame.length - 4]? = some x → frame[frame.length - 3]? = some y →
    frame[8]? = some b8 → frame[9]? = some b9 → frame[10]? = some b10 → frame[11]? = some b11 →
    compute s.params (frame.take (frame.length - 4)) = (if s.params.crcFieldBE then x ++ y else y ++ x) →
    s.params.knownIds.knows (b9 ++ b8) = true →
    exec (.feed 0x0A) s =
      .next { s with
        asm := .empty
        result := some ⟨.frameOk, some ⟨b9 ++ b8, b11 ++ b10, BitVec.ofNat 7 (frame.length - 16),
          decide ((b11 ++ b10).toNat = frame.length - 16), (frame.drop 12).take (frame.length - 16)⟩⟩
        freeIdx := s.freeIdx + 1 }

/-- R81: the register update, its corner cases and examples. -/
def Obligations.CrcUpdResult : Prop :=
  (∀ (s : State) (acc : Word) (data : Byte), exec (.crcUpd acc data) s =
    .next { s with crcUpdOut := some (Nat.iterate
        (fun r : BitVec 16 => if r.getLsbD 15 then (r <<< 1) ^^^ 0x1021#16 else r <<< 1) 8
        (acc ^^^ (((if s.params.crcRefIn then data.reverse else data).setWidth 16) <<< 8))) }) ∧
  (∀ p : Params, crcUpdate p 0x0000 0x00 = 0x0000 ∧ crcUpdate p 0xFFFF 0x00 = 0xE1F0 ∧
    crcUpdate p 0xFFFF 0xFF = 0xFF00 ∧ crcUpdate p 0x8000 0x00 = 0x9188 ∧ crcUpdate p 0x0001 0x00 = 0x0100) ∧
  (∀ p : Params, p.crcRefIn = true → crcUpdate p 0x0000 0x4B = 0xEB3F) ∧
  (∀ p : Params, p.crcRefIn = false → crcUpdate p 0xFFFF 0x4B = 0x185F ∧ crcUpdate p 0x0000 0x01 = 0x1021)

/-- R82: the finalisation, its corner cases and examples. -/
def Obligations.CrcFinResult : Prop :=
  (∀ (s : State) (acc : Word), exec (.crcFin acc) s =
    .next { s with crcFinOut := some ((if s.params.crcRefOut then acc.reverse else acc) ^^^ s.params.crcXorOut) }) ∧
  (∀ (p : Params) (acc : Word), p.crcRefOut = false → p.crcXorOut = 0 → crcFinish p acc = acc) ∧
  rev16 0x0000 = 0x0000 ∧ rev16 0xFFFF = 0xFFFF ∧ rev16 0x0001 = 0x8000 ∧ rev16 0x1234 = 0x2C48 ∧
  crcFinish Config.profileK 0x5D57 = 0xEABA ∧ crcFinish Config.profileF 0xF078 = 0xF078

/-- R84, R90: the empty span and the check values, under both profiles. -/
def Obligations.ChecksumCheckValues : Prop :=
  (∀ p : Params, compute p [] = crcFinish p p.crcInit) ∧
  compute Config.profileK [] = 0x0000 ∧ compute Config.profileF [] = 0xFFFF ∧
  compute Config.profileK [0x31, 0x32, 0x33, 0x34, 0x35, 0x36, 0x37, 0x38, 0x39] = 0x2189 ∧
  compute Config.profileF [0x31, 0x32, 0x33, 0x34, 0x35, 0x36, 0x37, 0x38, 0x39] = 0x29B1 ∧
  compute Config.profileK Config.framePrefix = 0xE3AF ∧ compute Config.profileF Config.framePrefix = 0xFB53 ∧
  compute Config.profileK (frameBody 1 0 []) = 0xEABA ∧ compute Config.profileF (frameBody 1 0 []) = 0xF078

/-- R75, R83, R87: the operations of `COMPUTE` leave the checksum of the span on the wires of `CRCFIN`, report nothing and
touch nothing but the wires of the CRC port. -/
def Obligations.ComputeThroughPort : Prop :=
  ∀ (s : State) (bytes : List Byte), ∃ u : Option Word,
    run (computeOps s.params s.params.crcInit bytes) s =
      some ([], { s with crcUpdOut := u, crcFinOut := some (compute s.params bytes) })

/-- R85: linearity, the table form and its spot values. -/
def Obligations.CrcUpdateLinearAndTable : Prop :=
  (∀ (p : Params) (a a' : Word) (d d' : Byte),
    crcUpdate p (a ^^^ a') (d ^^^ d') = crcUpdate p a d ^^^ crcUpdate p a' d') ∧
  (∀ p : Params, crcUpdate p 0 0 = 0) ∧
  (∀ p q : Params, q.crcRefIn = false → (∀ (acc : Word) (data : Byte), crcUpdate p acc data =
      (acc <<< 8) ^^^ crcUpdate q 0 (acc.extractLsb' 8 8 ^^^ (if p.crcRefIn then data.reverse else data))) ∧
    crcUpdate q 0 0x00 = 0x0000 ∧ crcUpdate q 0 0x01 = 0x1021 ∧ crcUpdate q 0 0x02 = 0x2042 ∧
    crcUpdate q 0 0x03 = 0x3063 ∧ crcUpdate q 0 0x80 = 0x9188 ∧ crcUpdate q 0 0xFF = 0x1EF0)

/-- R86: the reflected procedure keeps the bit-reversed register at every byte boundary and gives the same checksum. -/
def Obligations.ReflectedFormAgrees : Prop :=
  rev16 0x1021 = 0x8408 ∧
  ∀ (p : Params) (bytes : List Byte), p.crcRefIn = true → p.crcRefOut = true →
    crcRegisterReflected p bytes = rev16 (crcRegister p bytes) ∧
    compute p bytes = crcRegisterReflected p bytes ^^^ p.crcXorOut

/-- R88: where the byte order of the field goes with the bit order, the checksum over span and field is zero exactly when
the field is the checksum of the span. -/
def Obligations.ResidueTestAcceptsSameFrames : Prop :=
  ∀ (p : Params) (bytes : List Byte) (x y : Byte), p.crcXorOut = 0 → p.crcRefIn = p.crcRefOut →
    p.crcFieldBE = !p.crcRefIn →
    (compute p (bytes ++ [x, y]) = 0 ↔ compute p bytes = (if p.crcFieldBE then x ++ y else y ++ x))

/-- R89: a change confined to two neighbouring bytes of the span, so any change of a single byte, changes the checksum, for
every choice of the CRC parameters. -/
def Obligations.NeighbouringBytesErrorDetected : Prop :=
  ∀ (p : Params) (before after : List Byte) (b c b' c' : Byte), (b, c) ≠ (b', c') →
    compute p (before ++ [b, c] ++ after) ≠ compute p (before ++ [b', c'] ++ after)

/-- R24: the invariants hold after reset and after every step from a state that meets them. -/
def Obligations.StepKeepsRegisterInvariant : Prop :=
  RegisterInv State.reset ∧
  ∀ s t : State, RegisterInv s → step s = .next t → RegisterInv t

/-- R20, R24: the invariant of the sum type is the invariant of the registers. -/
def Obligations.InvariantMatchesRegisterView : Prop :=
  ∀ s : State, s.Inv ↔ RegisterInv s

/-- R73: a buffer never holds an end-marker pair, wherever in it (spec 95, V1). -/
def Obligations.BufferNeverHoldsEndMarker : Prop :=
  ∀ s t : State, s.asm.holdsNoEom → step s = .next t → t.asm.holdsNoEom

/-- R31, R66: the status word, its fields and its legal values. -/
def Obligations.StatusWordLegal : Prop :=
  State.reset.status = 0x000 ∧
  ∀ s : State, s.Inv →
    s.status.extractLsb' 7 2 = s.st ∧ s.status.extractLsb' 0 7 = s.len ∧
    ((s.asm = .empty ∧ s.status = 0x000) ∨
     ((∃ bytes, s.asm = .accumulating bytes) ∧ 0x081 ≤ s.status.toNat ∧ s.status.toNat ≤ 0x0F9) ∨
     (s.asm = .corrupt ∧ s.status = 0x100))

/-- R108: the transition table, row by row, with `n = bs.length + 1`. -/
def Obligations.TransitionTable : Prop :=
  ∀ s : State, s.Inv →
    endsIn .nop s s.asm [.idle] ∧ endsIn .clear s .empty [.cleared] ∧ endsIn .reserved s s.asm [.illegalCmd] ∧
    (s.asm = .corrupt → endsIn (.feed 0x0A) s .empty [.resync]) ∧
    (∀ c, s.asm = .corrupt → c ≠ 0x0A → endsIn (.feed c) s .corrupt [.swallow]) ∧
    (∀ bs c, s.asm.appendsTo bs →
      (bs.length + 1 = 122 → endsIn (.feed c) s .corrupt [.corruptOversize]) ∧
      (bs.length + 1 ≤ 8 → Config.framePrefix[bs.length]? ≠ some c → endsIn (.feed c) s .corrupt [.corruptPrefix]) ∧
      (10 ≤ bs.length + 1 → bs.length + 1 ≤ 121 → bs.getLast? = some 0x0D → c = 0x0A →
        endsIn (.feed c) s .empty completionCauses) ∧
      (bs.length + 1 ≤ 121 → (bs.length + 1 ≤ 8 → Config.framePrefix[bs.length]? = some c) →
        ¬ (10 ≤ bs.length + 1 ∧ bs.getLast? = some 0x0D ∧ c = 0x0A) →
        endsIn (.feed c) s (.accumulating (bs ++ [c])) [.accum])) ∧
    (s.asm = .empty → endsIn (.feed 0x4B) s (.accumulating [0x4B]) [.accum] ∧
      ∀ c, c ≠ 0x4B → endsIn (.feed c) s .corrupt [.corruptPrefix])

/-- R65: the codes, and the operation and the state after that each cause stands for. -/
def Obligations.CauseTellsStateAfter : Prop :=
  [Cause.idle, .accum, .swallow, .resync, .corruptOversize, .corruptPrefix, .frameOk, .dropRunt, .dropCrc, .dropUnknown,
    .cleared, .illegalCmd].map Cause.code = [0, 1, 2, 3, 4, 5, 6, 7, 8, 9, 10, 11] ∧
  ∀ (i : Instr) (s t : State), i.isCommand = true → exec i s = .next t → ∃ r, t.result = some r ∧
    match r.cause with
    | .idle => i = .nop ∧ t.asm = s.asm
    | .accum => ∃ c bs, i = .feed c ∧ s.asm.appendsTo bs ∧ t.asm = .accumulating (bs ++ [c])
    | .swallow => (∃ c, i = .feed c ∧ c ≠ 0x0A) ∧ s.asm = .corrupt ∧ t.asm = .corrupt
    | .resync => i = .feed 0x0A ∧ s.asm = .corrupt ∧ t.asm = .empty
    | .corruptOversize => (∃ c bs, i = .feed c ∧ s.asm.appendsTo bs ∧ 122 ≤ bs.length + 1) ∧ t.asm = .corrupt
    | .corruptPrefix => (∃ c bs, i = .feed c ∧ s.asm.appendsTo bs ∧ ¬ agreesWithPrefix (bs ++ [c])) ∧ t.asm = .corrupt
    | .frameOk => (∃ frame, i = .feed 0x0A ∧ s.completesWith frame ∧ 16 ≤ frame.length) ∧ t.asm = .empty
    | .dropRunt => (∃ frame, i = .feed 0x0A ∧ s.completesWith frame ∧ frame.length < 16) ∧ t.asm = .empty
    | .dropCrc => (∃ frame, i = .feed 0x0A ∧ s.completesWith frame ∧ 16 ≤ frame.length) ∧ t.asm = .empty
    | .dropUnknown => (∃ frame, i = .feed 0x0A ∧ s.completesWith frame ∧ 16 ≤ frame.length) ∧ t.asm = .empty
    | .cleared => i = .clear ∧ t.asm = .empty
    | .illegalCmd => i = .reserved ∧ t.asm = s.asm

/-- R64, R127: a record is delivered in exactly the steps that report `FRAME_OK`, and only the step that consumes the
frame's final `0A` does. -/
def Obligations.RecordOnlyWithFrameOk : Prop :=
  ∀ (i : Instr) (s t : State), i.isCommand = true → exec i s = .next t →
    ∃ r, t.result = some r ∧ (r.out.isSome = true ↔ r.cause = .frameOk) ∧
      (r.out.isSome = true → i = .feed 0x0A ∧ ∃ frame, s.completesWith frame)

/-- R117, R125: the bounds and the fields of every record delivered, from any state. -/
def Obligations.DeliveredRecordBounds : Prop :=
  ∀ (i : Instr) (s t : State) (cause : Cause) (r : Record), i.isCommand = true → exec i s = .next t →
    t.result = some ⟨cause, some r⟩ →
    r.payload.length ≤ 105 ∧ r.payloadLen.toNat = r.payload.length ∧
    (r.lenMatch = true ↔ r.declaredLen.toNat = r.payload.length) ∧
    ∃ frame, s.completesWith frame ∧ frame.length = 16 + r.payload.length

/-- R64: the flattening of the record port, whatever its unspecified bits carry. -/
def Obligations.OutWordLayout : Prop :=
  ∀ filler : BitVec 881, (flattenOut filler none).getLsbD 0 = false ∧
    ∀ r : Record,
      (flattenOut filler (some r)).getLsbD 0 = true ∧
      (flattenOut filler (some r)).extractLsb' 1 16 = r.typeId ∧
      (flattenOut filler (some r)).extractLsb' 17 16 = r.declaredLen ∧
      (flattenOut filler (some r)).extractLsb' 33 7 = r.payloadLen ∧
      (flattenOut filler (some r)).getLsbD 40 = r.lenMatch ∧
      ∀ k b, k < 105 → r.payload[k]? = some b → (flattenOut filler (some r)).extractLsb' (41 + 8 * k) 8 = b

/-- R104: given that the bytes before it match, the appended byte alone decides the prefix test. -/
def Obligations.PrefixTestIsOneComparison : Prop :=
  ∀ (bs : List Byte) (c : Byte), prefixMatches bs = true →
    (prefixMatches (bs ++ [c]) = true ↔ 8 < bs.length + 1 ∨ Config.framePrefix[bs.length]? = some c)

/-- R105: a frame completes with 10 to 121 bytes, and the shortest is `PREFIX` followed by the end marker. -/
def Obligations.ShortestCompletion : Prop :=
  (∀ (s : State) (frame : List Byte), s.completesWith frame → 10 ≤ frame.length ∧ frame.length ≤ 121 ∧
    (frame.length = 10 → frame = Config.framePrefix ++ [0x0D, 0x0A])) ∧
  (∀ s : State, s.asm = .accumulating (Config.framePrefix ++ [0x0D]) →
    s.completesWith (Config.framePrefix ++ [0x0D, 0x0A]))

/-- R68: two bytes that answer the three questions alike lead to the same `st`, `len` and outputs, and differ only in the
byte stored. -/
def Obligations.FeedDependsOnThreeQuestions : Prop :=
  ∀ (s : State) (c c' : Byte), (c = 0x0A ↔ c' = 0x0A) →
    (∀ bs, s.asm.appendsTo bs → bs.length < 8 →
      (Config.framePrefix[bs.length]? = some c ↔ Config.framePrefix[bs.length]? = some c')) →
    ∃ t t', exec (.feed c) s = .next t ∧ exec (.feed c') s = .next t' ∧
      t.st = t'.st ∧ t.len = t'.len ∧ t.result = t'.result ∧ t.asm.bytes.dropLast = t'.asm.bytes.dropLast

/-- R32, R65: outputs feed back into nothing: what an operation does to the assembler and to the outputs it drives depends
on the assembler state and the parameters alone. -/
def Obligations.OutputsNeverFeedBack : Prop :=
  ∀ (i : Instr) (s s' : State), s.asm = s'.asm → s.params = s'.params →
    ∃ t t', exec i s = .next t ∧ exec i s' = .next t' ∧ t.asm = t'.asm ∧ t.params = t'.params ∧
      (i.isCommand = true → t.result = t'.result) ∧
      (∀ acc data, i = .crcUpd acc data → t.crcUpdOut = t'.crcUpdOut) ∧
      (∀ acc, i = .crcFin acc → t.crcFinOut = t'.crcFinOut)

/-- R113, R123, R132, R148: `CLEAR`, a resynchronisation and every completed frame leave the assembler as reset leaves it,
and nothing else of the block tells which of them happened. The counter is the model's (log 8). -/
def Obligations.EndingsLeadToEmpty : Prop :=
  ∀ (i : Instr) (s t : State) (r : Report), i.isCommand = true → exec i s = .next t → t.result = some r →
    r.cause ∈ [Cause.cleared, .resync, .frameOk, .dropRunt, .dropCrc, .dropUnknown] →
    { t with result := none } = { s.resetEvent with freeIdx := s.freeIdx + 1 }

/-- R31, R61, R94 to R107: no command writes a parameter, the input or a wire of the CRC port. -/
def Obligations.CommandFrame : Prop :=
  ∀ (i : Instr) (s t : State), i.isCommand = true → exec i s = .next t →
    t.params = s.params ∧ t.input = s.input ∧ t.crcUpdOut = s.crcUpdOut ∧ t.crcFinOut = s.crcFinOut

/-- R87: the CRC operations write nothing of the block and nothing on the result port, and give the same result in all
states of one block. -/
def Obligations.CrcPortFrame : Prop :=
  (∀ (acc : Word) (data : Byte) (s : State), ∃ v, exec (.crcUpd acc data) s = .next { s with crcUpdOut := some v } ∧
    ∀ s' : State, s'.params = s.params → exec (.crcUpd acc data) s' = .next { s' with crcUpdOut := some v }) ∧
  (∀ (acc : Word) (s : State), ∃ v, exec (.crcFin acc) s = .next { s with crcFinOut := some v } ∧
    ∀ s' : State, s'.params = s.params → exec (.crcFin acc) s' = .next { s' with crcFinOut := some v })

/-- R23, R26, R36, R98: the frame buffer. A `FEED` that stays in `Accumulating` writes the one cell at index `len`; every
other ending of a `FEED`, and `CLEAR`, leaves no cell defined, but for a swallowed byte, which changes none (there is none);
the other operations change no cell. The buffer keeps its canonical form. -/
def Obligations.BufferFrame : Prop :=
  (∀ s : State, Memory.wf s.buf) ∧
  (∀ (s t : State) (c : Byte) (bytes : List Byte), exec (.feed c) s = .next t → t.asm = .accumulating bytes →
    t.buf = s.buf.write s.asm.count c ∧ t.readCell s.asm.count = some c ∧
    ∀ a, a ≠ s.asm.count → t.readCell a = s.readCell a) ∧
  (∀ (s t : State) (c : Byte), exec (.feed c) s = .next t → (¬ ∃ bytes, t.asm = .accumulating bytes) →
    ∀ a, t.readCell a = none) ∧
  (∀ s t : State, exec .clear s = .next t → ∀ a, t.readCell a = none) ∧
  (∀ (s t : State) (i : Instr), exec i s = .next t → (∀ c, i ≠ .feed c) → i ≠ .clear →
    ∀ a, t.readCell a = s.readCell a)

/-- R148, R152: no step and no run changes a parameter. -/
def Obligations.ParametersNeverChange : Prop :=
  (∀ s t : State, step s = .next t → t.params = s.params) ∧
  (∀ (is : List Instr) (s t : State) (rs : List Report), run is s = some (rs, t) → t.params = s.params)

/-- R109: the byte that corrupts is consumed and does not resynchronise: a `0A` fed in `Empty` costs the whole next line. -/
def Obligations.CorruptingByteIsConsumed : Prop :=
  ∀ (s : State) (line : List Byte), s.asm = .empty → 0x0A ∉ line →
    ∃ t, run (feeds (0x0A :: line ++ [0x0A])) s =
        some (silent .corruptPrefix :: List.replicate line.length (silent .swallow) ++ [silent .resync], t) ∧
      t.asm = .empty

/-- R96, R97, R111: from `Corrupt` the block is in `Empty` right after the next `0A`, whatever precedes it. -/
def Obligations.ResyncAtNextLineEnd : Prop :=
  ∀ (s : State) (line : List Byte), s.asm = .corrupt → 0x0A ∉ line →
    ∃ t, run (feeds (line ++ [0x0A])) s =
        some (List.replicate line.length (silent .swallow) ++ [silent .resync], t) ∧ t.asm = .empty

/-- R111: from `Accumulating`, within `122 - len` further bytes the block has completed a frame or is `Corrupt`. -/
def Obligations.AccumulatingEndsWithinBound : Prop :=
  ∀ (s : State) (bytes cs : List Byte), s.Inv → s.asm = .accumulating bytes → cs.length = 122 - bytes.length →
    ∃ (k : Nat) (r : Report) (rs : List Report × State) (t : State), k < cs.length ∧
      run (feeds (cs.take (k + 1))) s = some (List.replicate k (silent .accum) ++ [r], t) ∧
      run (feeds cs) s = some (List.replicate k (silent .accum) ++ [r] ++ rs.1, rs.2) ∧
      ((r.cause ∈ completionCauses ∧ t.asm = .empty) ∨
       (r.cause ∈ [Cause.corruptOversize, .corruptPrefix] ∧ t.asm = .corrupt))

/-- R110: whatever is fed, the buffer never holds more than 121 bytes. -/
def Obligations.RunKeepsBufferBounded : Prop :=
  ∀ (is : List Instr) (s : State), s.Inv → ∃ rs t, run is s = some (rs, t) ∧ t.Inv ∧ t.asm.count ≤ 121 ∧ t.len.toNat ≤ 121

/-- R46, R162: steps on presented words are the run of the operations the words decode to. The list of
stimuli is the model's choice (log 4). -/
def Obligations.RunFollowsSteps : Prop :=
  ∀ (ws : List PortWord) (rest : List Stimulus) (s : State), s.input = ws.map .word ++ rest →
    ∃ rs t, run (ws.map decode) { s with input := rest } = some (rs, t) ∧
      Host.Core.run Sys2Proof.core ws.length s = Host.Outcome.next t

/-- R128: from `Empty`, the bytes of `frame_encode(id, payload)` are delivered whole, with `ACCUM` for every byte but the
last, exactly when the frame is short enough, holds no end-marker pair before its own, and its id is known. -/
def Obligations.WellFormedFrameDelivered : Prop :=
  ∀ (s : State) (id : Word) (payload : List Byte), s.asm = .empty →
    ((∃ t, run (feeds (frameEncode s.params id payload)) s =
        some (List.replicate ((frameEncode s.params id payload).length - 1) (silent .accum) ++
          [⟨.frameOk, some
            { typeId := id
              declaredLen := BitVec.ofNat 16 payload.length
              payloadLen := BitVec.ofNat 7 payload.length
              lenMatch := true
              payload := payload }⟩], t) ∧ t.asm = .empty) ↔
      (frameEncode s.params id payload).length ≤ 121 ∧
      (∀ i, 8 ≤ i → i ≤ (frameEncode s.params id payload).length - 4 → ¬ eomAt (frameEncode s.params id payload) i) ∧
      s.params.knownIds.knows id = true)

/-- R124: the declared length is not validated: a frame that declares another length is delivered as received. -/
def Obligations.RawFrameDelivered : Prop :=
  ∀ (s : State) (id dlen : Word) (payload : List Byte), s.asm = .empty → payload.length ≤ 105 →
    (∀ i, 8 ≤ i → i ≤ (frameEncodeRaw s.params id dlen payload).length - 4 →
      ¬ eomAt (frameEncodeRaw s.params id dlen payload) i) →
    s.params.knownIds.knows id = true →
    ∃ t, run (feeds (frameEncodeRaw s.params id dlen payload)) s =
      some (List.replicate (15 + payload.length) (silent .accum) ++
        [⟨.frameOk, some
          { typeId := id
            declaredLen := dlen
            payloadLen := BitVec.ofNat 7 payload.length
            lenMatch := decide (dlen.toNat = payload.length)
            payload := payload }⟩], t) ∧ t.asm = .empty

/-- R120, R128: a well-formed frame whose id is not known is dropped at its last byte. -/
def Obligations.UnknownIdFrameDropped : Prop :=
  ∀ (s : State) (id : Word) (payload : List Byte), s.asm = .empty → payload.length ≤ 105 →
    (∀ i, 8 ≤ i → i ≤ (frameEncode s.params id payload).length - 4 → ¬ eomAt (frameEncode s.params id payload) i) →
    s.params.knownIds.knows id = false →
    ∃ t, run (feeds (frameEncode s.params id payload)) s =
      some (List.replicate (15 + payload.length) (silent .accum) ++ [silent .dropUnknown], t) ∧ t.asm = .empty

/-- R99, R128, R155, R157: a frame of 122 bytes or more meets the oversize test at its 122nd byte, even if that byte is its
own final `0A`. -/
def Obligations.OversizeFrameCorrupts : Prop :=
  ∀ (s : State) (id : Word) (payload : List Byte), s.asm = .empty → 106 ≤ payload.length →
    (∀ i, 8 ≤ i → i ≤ 119 → ¬ eomAt (frameEncode s.params id payload) i) →
    ∃ t, run (feeds ((frameEncode s.params id payload).take 122)) s =
      some (List.replicate 121 (silent .accum) ++ [silent .corruptOversize], t) ∧ t.asm = .corrupt

/-- R101, R126, R154: a buffer that starts with `PREFIX` is cut at the first end-marker pair, wherever it lies. -/
def Obligations.FrameCutAtFirstEndMarker : Prop :=
  ∀ (s : State) (stream : List Byte) (k : Nat), s.asm = .empty → Config.framePrefix <+: stream → k + 2 ≤ 121 →
    eomAt stream k → (∀ i, i < k → ¬ eomAt stream i) →
    ∃ r t, run (feeds (stream.take (k + 2))) s = some (List.replicate (k + 1) (silent .accum) ++ [r], t) ∧
      r.cause ∈ completionCauses ∧ (k + 2 < 16 → r = silent .dropRunt) ∧ t.asm = .empty
end

