-- ==== Sys2Proof/Laws/State.lean ====
section
/-! SUPPORT. One lemma per field per update of the state (spec 00 R16, spec 70 R147). -/

namespace Sys2Proof.Machine

variable (s : State)

@[simp] theorem State.endWith_params (a : Assembler) (cause : Cause) (out : Option Record) : (s.endWith a cause out).params = s.params := rfl
@[simp] theorem State.endWith_asm (a : Assembler) (cause : Cause) (out : Option Record) : (s.endWith a cause out).asm = a := rfl
@[simp] theorem State.endWith_input (a : Assembler) (cause : Cause) (out : Option Record) : (s.endWith a cause out).input = s.input := rfl
@[simp] theorem State.endWith_result (a : Assembler) (cause : Cause) (out : Option Record) : (s.endWith a cause out).result = some ⟨cause, out⟩ := rfl
@[simp] theorem State.endWith_crcUpdOut (a : Assembler) (cause : Cause) (out : Option Record) : (s.endWith a cause out).crcUpdOut = s.crcUpdOut := rfl
@[simp] theorem State.endWith_crcFinOut (a : Assembler) (cause : Cause) (out : Option Record) : (s.endWith a cause out).crcFinOut = s.crcFinOut := rfl
@[simp] theorem State.endWith_freeIdx (a : Assembler) (cause : Cause) (out : Option Record) : (s.endWith a cause out).freeIdx = s.freeIdx + 1 := rfl

@[simp] theorem State.keep_params (cause : Cause) : (s.keep cause).params = s.params := rfl
@[simp] theorem State.keep_asm (cause : Cause) : (s.keep cause).asm = s.asm := rfl
@[simp] theorem State.keep_input (cause : Cause) : (s.keep cause).input = s.input := rfl
@[simp] theorem State.keep_result (cause : Cause) : (s.keep cause).result = some ⟨cause, none⟩ := rfl
@[simp] theorem State.keep_crcUpdOut (cause : Cause) : (s.keep cause).crcUpdOut = s.crcUpdOut := rfl
@[simp] theorem State.keep_crcFinOut (cause : Cause) : (s.keep cause).crcFinOut = s.crcFinOut := rfl
@[simp] theorem State.keep_freeIdx (cause : Cause) : (s.keep cause).freeIdx = s.freeIdx + 1 := rfl

@[simp] theorem State.corruptWith_params (cause : Cause) : (s.corruptWith cause).params = s.params := rfl
@[simp] theorem State.corruptWith_asm (cause : Cause) : (s.corruptWith cause).asm = .corrupt := rfl
@[simp] theorem State.corruptWith_input (cause : Cause) : (s.corruptWith cause).input = s.input := rfl
@[simp] theorem State.corruptWith_result (cause : Cause) : (s.corruptWith cause).result = some ⟨cause, none⟩ := rfl
@[simp] theorem State.corruptWith_crcUpdOut (cause : Cause) : (s.corruptWith cause).crcUpdOut = s.crcUpdOut := rfl
@[simp] theorem State.corruptWith_crcFinOut (cause : Cause) : (s.corruptWith cause).crcFinOut = s.crcFinOut := rfl
@[simp] theorem State.corruptWith_freeIdx (cause : Cause) : (s.corruptWith cause).freeIdx = s.freeIdx + 1 := rfl

@[simp] theorem State.toEmpty_params (cause : Cause) : (s.toEmpty cause).params = s.params := rfl
@[simp] theorem State.toEmpty_asm (cause : Cause) : (s.toEmpty cause).asm = .empty := rfl
@[simp] theorem State.toEmpty_input (cause : Cause) : (s.toEmpty cause).input = s.input := rfl
@[simp] theorem State.toEmpty_result (cause : Cause) : (s.toEmpty cause).result = some ⟨cause, none⟩ := rfl
@[simp] theorem State.toEmpty_crcUpdOut (cause : Cause) : (s.toEmpty cause).crcUpdOut = s.crcUpdOut := rfl
@[simp] theorem State.toEmpty_crcFinOut (cause : Cause) : (s.toEmpty cause).crcFinOut = s.crcFinOut := rfl
@[simp] theorem State.toEmpty_freeIdx (cause : Cause) : (s.toEmpty cause).freeIdx = s.freeIdx + 1 := rfl

@[simp] theorem State.dropWith_params (cause : Cause) : (s.dropWith cause).params = s.params := rfl
@[simp] theorem State.dropWith_asm (cause : Cause) : (s.dropWith cause).asm = .empty := rfl
@[simp] theorem State.dropWith_input (cause : Cause) : (s.dropWith cause).input = s.input := rfl
@[simp] theorem State.dropWith_result (cause : Cause) : (s.dropWith cause).result = some ⟨cause, none⟩ := rfl
@[simp] theorem State.dropWith_crcUpdOut (cause : Cause) : (s.dropWith cause).crcUpdOut = s.crcUpdOut := rfl
@[simp] theorem State.dropWith_crcFinOut (cause : Cause) : (s.dropWith cause).crcFinOut = s.crcFinOut := rfl
@[simp] theorem State.dropWith_freeIdx (cause : Cause) : (s.dropWith cause).freeIdx = s.freeIdx + 1 := rfl

@[simp] theorem State.deliver_params (r : Record) : (s.deliver r).params = s.params := rfl
@[simp] theorem State.deliver_asm (r : Record) : (s.deliver r).asm = .empty := rfl
@[simp] theorem State.deliver_input (r : Record) : (s.deliver r).input = s.input := rfl
@[simp] theorem State.deliver_result (r : Record) : (s.deliver r).result = some ⟨.frameOk, some r⟩ := rfl
@[simp] theorem State.deliver_crcUpdOut (r : Record) : (s.deliver r).crcUpdOut = s.crcUpdOut := rfl
@[simp] theorem State.deliver_crcFinOut (r : Record) : (s.deliver r).crcFinOut = s.crcFinOut := rfl
@[simp] theorem State.deliver_freeIdx (r : Record) : (s.deliver r).freeIdx = s.freeIdx + 1 := rfl

@[simp] theorem State.resetEvent_params : (s.resetEvent).params = s.params := rfl
@[simp] theorem State.resetEvent_asm : (s.resetEvent).asm = .empty := rfl
@[simp] theorem State.resetEvent_input : (s.resetEvent).input = s.input := rfl
@[simp] theorem State.resetEvent_result : (s.resetEvent).result = none := rfl
@[simp] theorem State.resetEvent_crcUpdOut : (s.resetEvent).crcUpdOut = s.crcUpdOut := rfl
@[simp] theorem State.resetEvent_crcFinOut : (s.resetEvent).crcFinOut = s.crcFinOut := rfl
@[simp] theorem State.resetEvent_freeIdx : (s.resetEvent).freeIdx = s.freeIdx := rfl

/-- Two states with the same fields are one state. -/
theorem State.eq_of_fields {s t : State} (h1 : s.params = t.params) (h2 : s.asm = t.asm) (h3 : s.input = t.input)
    (h4 : s.result = t.result) (h5 : s.crcUpdOut = t.crcUpdOut) (h6 : s.crcFinOut = t.crcFinOut)
    (h7 : s.freeIdx = t.freeIdx) : s = t := by
  cases s
  cases t
  simp_all

end Sys2Proof.Machine
end

