-- ==== Sys2Proof/Laws/Checksum.lean ====
section
/-! SUPPORT. The laws of the Checksum Unit's operations (spec 40) that later proofs cite. -/

namespace Sys2Proof.Machine

@[simp] theorem crcRegister_nil (p : Params) : crcRegister p [] = p.crcInit := rfl

/-- One more byte of a span is one more `CRCUPD` (R83). -/
@[simp] theorem crcRegister_snoc (p : Params) (bytes : List Byte) (b : Byte) :
    crcRegister p (bytes ++ [b]) = crcUpdate p (crcRegister p bytes) b := by
  simp [crcRegister]

theorem crcRegister_append (p : Params) (bytes more : List Byte) :
    crcRegister p (bytes ++ more) = more.foldl (crcUpdate p) (crcRegister p bytes) := by
  simp [crcRegister]

theorem compute_eq (p : Params) (bytes : List Byte) : compute p bytes = crcFinish p (crcRegister p bytes) := rfl

theorem crcShift_of_top {r : Word} (h : r.getLsbD 15 = true) : crcShift r = (r <<< 1) ^^^ Config.crcPoly := by
  rw [crcShift, if_pos h]

theorem crcShift_of_not_top {r : Word} (h : r.getLsbD 15 = false) : crcShift r = r <<< 1 := by
  rw [crcShift, h, if_neg Bool.false_ne_true]

/-- The shift is linear over XOR (R85). -/
theorem crcShift_xor (r q : Word) : crcShift (r ^^^ q) = crcShift r ^^^ crcShift q := by
  cases hr : r.getLsbD 15 <;> cases hq : q.getLsbD 15 <;>
    simp only [crcShift, BitVec.getLsbD_xor, hr, hq, Bool.xor_true, Bool.xor_false, Bool.not_true, Bool.not_false,
      BitVec.shiftLeft_xor_distrib, if_true, if_false, Bool.false_eq_true]
  · simp only [BitVec.xor_assoc]
  · simp only [BitVec.xor_assoc, BitVec.xor_comm (q <<< 1)]
  · have h := BitVec.xor_self (x := Config.crcPoly)
    rw [BitVec.xor_assoc, ← BitVec.xor_assoc Config.crcPoly, BitVec.xor_comm Config.crcPoly, BitVec.xor_assoc, h,
      BitVec.xor_zero]

@[simp] theorem crcByte_refIn {p : Params} (h : p.crcRefIn = true) (b : Byte) : crcByte p b = rev8 b := by
  simp [crcByte, h]

@[simp] theorem crcByte_plain {p : Params} (h : p.crcRefIn = false) (b : Byte) : crcByte p b = b := by
  simp [crcByte, h]

theorem execCrcUpd_eq (acc : Word) (data : Byte) (s : State) :
    execCrcUpd acc data s = .next { s with crcUpdOut := some (crcUpdate s.params acc data) } := rfl

theorem execCrcFin_eq (acc : Word) (s : State) :
    execCrcFin acc s = .next { s with crcFinOut := some (crcFinish s.params acc) } := rfl

end Sys2Proof.Machine
end

