-- ==== Sys2Proof/Laws/Config.lean ====
section
/-! SUPPORT. The numerals of the named constants (spec 00, R7, R8). -/

namespace Sys2Proof.Config

@[simp] theorem prefixLen_eq : prefixLen = 8 := rfl
@[simp] theorem headerLen_eq : headerLen = 12 := rfl
@[simp] theorem eomLen_eq : eomLen = 2 := rfl
@[simp] theorem cksumLen_eq : cksumLen = 2 := rfl
@[simp] theorem maxLen_eq : maxLen = 122 := rfl
@[simp] theorem minFrame_eq : minFrame = 16 := rfl
@[simp] theorem trailerRegion_eq : trailerRegion = 4 := rfl
@[simp] theorem maxComplete_eq : maxComplete = 121 := rfl
@[simp] theorem payloadDeliverableMax_eq : payloadDeliverableMax = 105 := rfl
@[simp] theorem bufCells_eq : bufCells = 122 := rfl
@[simp] theorem resyncByte_eq : resyncByte = 0x0A := rfl
@[simp] theorem eom_eq : eom = [0x0D, 0x0A] := rfl
@[simp] theorem framePrefix_length : framePrefix.length = 8 := rfl

/-- No byte of `PREFIX` is a byte of the end marker (R105, R128). -/
theorem framePrefix_no_eom : (0x0D : Byte) ∉ framePrefix ∧ (0x0A : Byte) ∉ framePrefix := by decide

end Sys2Proof.Config
end

