-- ==== Sys2Proof/Laws/Completion.lean ====
section
/-! SUPPORT. What a completed frame does (spec 42): the assembler is `Empty` in every case, and the verdict decides the
report. The reads of a frame of at least 16 bytes are reads of its cells (spec 20, R44). -/

namespace Sys2Proof.Machine

theorem frameByte_eq {frame : List Byte} {i : Nat} {b : Byte} (h : frame[i]? = some b) : frameByte frame i = b := by
  simp [frameByte, List.getD, h]

theorem memRead16_eq {frame : List Byte} {a : Nat} {lo hi : Byte} (h0 : frame[a]? = some lo)
    (h1 : frame[a + 1]? = some hi) : memRead16 frame a = hi ++ lo := by
  rw [memRead16, frameByte_eq h0, frameByte_eq h1]

theorem memReadBE16_eq {frame : List Byte} {a : Nat} {hi lo : Byte} (h0 : frame[a]? = some hi)
    (h1 : frame[a + 1]? = some lo) : memReadBE16 frame a = hi ++ lo := by
  rw [memReadBE16, frameByte_eq h0, frameByte_eq h1]

theorem frameSpan_eq (frame : List Byte) : frameSpan frame = frame.take (frame.length - 4) := by
  simp [frameSpan, span]

theorem framePayload_eq (frame : List Byte) : framePayload frame = (frame.drop 12).take (frame.length - 16) := by
  simp only [framePayload, span, Config.headerLen_eq, Config.trailerRegion_eq]
  congr 1

theorem frameField_eq {p : Params} {frame : List Byte} {x y : Byte} (hx : frame[frame.length - 4]? = some x)
    (hy : frame[frame.length - 4 + 1]? = some y) :
    frameField p frame = if p.crcFieldBE then x ++ y else y ++ x := by
  unfold frameField
  rw [Config.trailerRegion_eq, memReadBE16_eq hx hy, memRead16_eq hx hy]

theorem judge_runt {p : Params} {frame : List Byte} (h : frame.length < 16) : judge p frame = .runt := by
  simp [judge, h]

theorem judge_long {p : Params} {frame : List Byte} (h : 16 ≤ frame.length) :
    judge p frame = if compute p (frameSpan frame) != frameField p frame then .badChecksum
      else if p.knownIds.knows (frameTypeId frame) then .good else .unknownType := by
  simp [judge, Nat.not_lt.mpr h]

/-- Everything a completion can do (R113, R122). -/
theorem complete_cases (s : State) (frame : List Byte) :
    (judge s.params frame = .runt ∧ s.complete frame = s.dropWith .dropRunt) ∨
    (judge s.params frame = .badChecksum ∧ s.complete frame = s.dropWith .dropCrc) ∨
    (judge s.params frame = .unknownType ∧ s.complete frame = s.dropWith .dropUnknown) ∨
    (judge s.params frame = .good ∧ s.complete frame = s.deliver (frameRecord frame)) := by
  cases h : judge s.params frame <;> simp [State.complete, h]

@[simp] theorem complete_asm (s : State) (frame : List Byte) : (s.complete frame).asm = .empty := by
  rcases complete_cases s frame with ⟨_, h⟩ | ⟨_, h⟩ | ⟨_, h⟩ | ⟨_, h⟩ <;> simp [h]

@[simp] theorem complete_params (s : State) (frame : List Byte) : (s.complete frame).params = s.params := by
  rcases complete_cases s frame with ⟨_, h⟩ | ⟨_, h⟩ | ⟨_, h⟩ | ⟨_, h⟩ <;> simp [h]

@[simp] theorem complete_input (s : State) (frame : List Byte) : (s.complete frame).input = s.input := by
  rcases complete_cases s frame with ⟨_, h⟩ | ⟨_, h⟩ | ⟨_, h⟩ | ⟨_, h⟩ <;> simp [h]

@[simp] theorem complete_crcUpdOut (s : State) (frame : List Byte) : (s.complete frame).crcUpdOut = s.crcUpdOut := by
  rcases complete_cases s frame with ⟨_, h⟩ | ⟨_, h⟩ | ⟨_, h⟩ | ⟨_, h⟩ <;> simp [h]

@[simp] theorem complete_crcFinOut (s : State) (frame : List Byte) : (s.complete frame).crcFinOut = s.crcFinOut := by
  rcases complete_cases s frame with ⟨_, h⟩ | ⟨_, h⟩ | ⟨_, h⟩ | ⟨_, h⟩ <;> simp [h]

@[simp] theorem complete_freeIdx (s : State) (frame : List Byte) : (s.complete frame).freeIdx = s.freeIdx + 1 := by
  rcases complete_cases s frame with ⟨_, h⟩ | ⟨_, h⟩ | ⟨_, h⟩ | ⟨_, h⟩ <;> simp [h]

end Sys2Proof.Machine
end

