-- ==== Sys2Proof/Laws/Memory.lean ====
section
/-! SUPPORT. The laws of the frame buffer as a memory (spec 20): what is written is read back, nothing else changes, the
canonical form is kept, and appending a byte is writing the cell at index `len` (spec 41, R98). -/

namespace Sys2Proof.Machine

theorem Memory.read_write_same (m : Memory) (a : Nat) (v : Byte) : (m.write a v).read a = some v := by
  induction m with
  | nil => simp [Memory.write, Memory.read]
  | cons x m ih =>
    simp only [Memory.read] at ih
    unfold Memory.write
    split
    · simp [Memory.read, List.lookup]
    · split
      · simp [Memory.read, List.lookup]
      · rename_i h
        simp [Memory.read, List.lookup, beq_eq_false_iff_ne.mpr h, ih]

theorem Memory.read_write_other (m : Memory) {a b : Nat} (v : Byte) (h : b ≠ a) :
    (m.write a v).read b = m.read b := by
  have hb : (b == a) = false := beq_eq_false_iff_ne.mpr h
  induction m with
  | nil => simp [Memory.write, Memory.read, List.lookup, hb]
  | cons x m ih =>
    simp only [Memory.read] at ih
    unfold Memory.write
    split
    · simp [Memory.read, List.lookup, hb]
    · split
      · rename_i hx
        simp [Memory.read, List.lookup, hb, ← hx]
      · simp only [Memory.read, List.lookup, ih]

theorem Memory.mem_write {m : Memory} {a : Nat} {v : Byte} {c : Host.Cell} (h : c ∈ m.write a v) :
    c = (a, v) ∨ c ∈ m := by
  induction m with
  | nil => simpa [Memory.write] using h
  | cons x m ih =>
    unfold Memory.write at h
    split at h
    · simpa using h
    · split at h
      · rcases List.mem_cons.mp h with h | h
        · exact .inl h
        · exact .inr (List.mem_cons_of_mem _ h)
      · rcases List.mem_cons.mp h with h | h
        · exact .inr (h ▸ List.mem_cons_self)
        · rcases ih h with h | h
          · exact .inl h
          · exact .inr (List.mem_cons_of_mem _ h)

/-- A write keeps the canonical form. -/
theorem Memory.write_wf {m : Memory} (a : Nat) (v : Byte) (h : m.wf) : (m.write a v).wf := by
  induction m with
  | nil => simp [Memory.write, Memory.wf]
  | cons x m ih =>
    obtain ⟨hx, hm⟩ := List.pairwise_cons.mp h
    unfold Memory.write
    split
    · rename_i hlt
      refine List.pairwise_cons.mpr ⟨fun c hc => ?_, h⟩
      rcases List.mem_cons.mp hc with rfl | hc
      · exact hlt
      · exact Nat.lt_trans hlt (hx c hc)
    · split
      · rename_i heq
        exact List.pairwise_cons.mpr ⟨fun c hc => heq ▸ hx c hc, hm⟩
      · rename_i h1 h2
        refine List.pairwise_cons.mpr ⟨fun c hc => ?_, ih hm⟩
        rcases Memory.mem_write hc with rfl | hc
        · show x.1 < a
          omega
        · exact hx c hc

theorem Memory.layout_bounds {k : Nat} {bs : List Byte} {c : Host.Cell} (h : c ∈ Memory.layout k bs) :
    k ≤ c.1 ∧ c.1 < k + bs.length := by
  induction bs generalizing k with
  | nil => simp [Memory.layout] at h
  | cons b bs ih =>
    rcases List.mem_cons.mp h with rfl | h
    · simp
    · have := ih h
      simp only [List.length_cons]
      omega

/-- The view of a buffer is in canonical form. -/
theorem Memory.layout_wf (k : Nat) (bs : List Byte) : (Memory.layout k bs).wf := by
  induction bs generalizing k with
  | nil => simp [Memory.layout, Memory.wf]
  | cons b bs ih =>
    exact List.pairwise_cons.mpr ⟨fun c hc => (Memory.layout_bounds hc).1, ih (k + 1)⟩

theorem Memory.read_layout (k : Nat) (bs : List Byte) (i : Nat) : (Memory.layout k bs).read (k + i) = bs[i]? := by
  induction bs generalizing k i with
  | nil => simp [Memory.layout, Memory.read]
  | cons b bs ih =>
    cases i with
    | zero => simp [Memory.layout, Memory.read]
    | succ i =>
      have h : (k + (i + 1) == k) = false := by simp
      have := ih (k + 1) i
      simp only [Memory.read] at this
      simp only [Memory.layout, Memory.read, List.lookup, h, List.getElem?_cons_succ, ← this]
      congr 1
      omega

/-- Appending a byte is a write at the end of the buffer (R98). -/
theorem Memory.layout_append (k : Nat) (bs : List Byte) (c : Byte) :
    Memory.layout k (bs ++ [c]) = (Memory.layout k bs).write (k + bs.length) c := by
  induction bs generalizing k with
  | nil => simp [Memory.layout, Memory.write]
  | cons b bs ih =>
    have h1 : ¬ k + (b :: bs).length < k := by omega
    have h2 : ¬ k + (b :: bs).length = k := by simp
    have h3 : k + (b :: bs).length = k + 1 + bs.length := by
      rw [List.length_cons]
      omega
    rw [List.cons_append, Memory.layout, Memory.layout, Memory.write, if_neg h1, if_neg h2, ih (k + 1), h3]

@[simp] theorem State.readCell_eq (s : State) (i : Nat) : s.readCell i = s.asm.bytes[i]? := by
  simpa [State.readCell, State.buf] using Memory.read_layout 0 s.asm.bytes i

theorem State.buf_wf (s : State) : s.buf.wf := Memory.layout_wf 0 _

/-- Every defined cell lies below `len` (R44). -/
theorem State.buf_bounds {s : State} {c : Host.Cell} (h : c ∈ s.buf) : c.1 < s.asm.count := by
  simpa [Assembler.count] using (Memory.layout_bounds h).2

theorem State.reset_buf : State.reset.buf = [] := rfl

@[simp] theorem Assembler.bytes_empty : Assembler.empty.bytes = [] := rfl
@[simp] theorem Assembler.bytes_corrupt : Assembler.corrupt.bytes = [] := rfl
@[simp] theorem Assembler.bytes_accumulating (bs : List Byte) : (Assembler.accumulating bs).bytes = bs := rfl
@[simp] theorem Assembler.count_empty : Assembler.empty.count = 0 := rfl
@[simp] theorem Assembler.count_corrupt : Assembler.corrupt.count = 0 := rfl
@[simp] theorem Assembler.count_accumulating (bs : List Byte) : (Assembler.accumulating bs).count = bs.length := rfl
@[simp] theorem Assembler.st_empty : Assembler.empty.st = 0b00 := rfl
@[simp] theorem Assembler.st_accumulating (bs : List Byte) : (Assembler.accumulating bs).st = 0b01 := rfl
@[simp] theorem Assembler.st_corrupt : Assembler.corrupt.st = 0b10 := rfl

end Sys2Proof.Machine
end

