-- ==== Sys2Proof/Laws/Assembler.lean ====
section
/-! SUPPORT. What a `FEED` can do (spec 41): one lemma per arm, the inversion of every operation, and the tests of the append
arm in terms of the bytes. -/

namespace Sys2Proof.Machine

theorem isOversize_iff (buf : List Byte) : isOversize buf = true ↔ 122 ≤ buf.length := by
  rw [isOversize, Config.maxLen_eq, decide_eq_true_eq]

theorem prefixMatches_iff (buf : List Byte) : prefixMatches buf = true ↔ agreesWithPrefix buf := by
  simp [prefixMatches, agreesWithPrefix]

/-- The end-marker test sees the appended byte and the one before it (R101). -/
theorem endsWithEom_snoc (bs : List Byte) (c : Byte) :
    endsWithEom (bs ++ [c]) = true ↔ bs.getLast? = some 0x0D ∧ c = 0x0A := by
  rcases List.eq_nil_or_concat bs with rfl | ⟨front, b, rfl⟩
  · simp [endsWithEom]
  · simp [endsWithEom]

theorem afterAppend_oversize {s : State} {buf : List Byte} (h : 122 ≤ buf.length) :
    s.afterAppend buf = s.corruptWith .corruptOversize := by
  rw [State.afterAppend, if_pos ((isOversize_iff buf).mpr h)]

theorem afterAppend_badPrefix {s : State} {buf : List Byte} (h1 : buf.length < 122) (h2 : ¬ agreesWithPrefix buf) :
    s.afterAppend buf = s.corruptWith .corruptPrefix := by
  have h1' : ¬ isOversize buf = true := by
    rw [isOversize_iff]
    omega
  have h2' : prefixMatches buf = false := by
    rw [← Bool.not_eq_true, prefixMatches_iff]
    exact h2
  simp [State.afterAppend, h1', h2']

theorem afterAppend_completes {s : State} {buf : List Byte} (h1 : buf.length < 122) (h2 : agreesWithPrefix buf)
    (h3 : endsWithEom buf = true) : s.afterAppend buf = s.complete buf := by
  have h1' : ¬ isOversize buf = true := by
    rw [isOversize_iff]
    omega
  simp [State.afterAppend, h1', (prefixMatches_iff buf).mpr h2, h3]

theorem afterAppend_continues {s : State} {buf : List Byte} (h1 : buf.length < 122) (h2 : agreesWithPrefix buf)
    (h3 : endsWithEom buf = false) : s.afterAppend buf = s.endWith (.accumulating buf) .accum none := by
  have h1' : ¬ isOversize buf = true := by
    rw [isOversize_iff]
    omega
  simp [State.afterAppend, h1', (prefixMatches_iff buf).mpr h2, h3]

/-- Everything the append arm can do (R99 to R103). -/
theorem afterAppend_cases (s : State) (buf : List Byte) :
    (122 ≤ buf.length ∧ s.afterAppend buf = s.corruptWith .corruptOversize) ∨
    (buf.length < 122 ∧ ¬ agreesWithPrefix buf ∧ s.afterAppend buf = s.corruptWith .corruptPrefix) ∨
    (buf.length < 122 ∧ agreesWithPrefix buf ∧ endsWithEom buf = true ∧ s.afterAppend buf = s.complete buf) ∨
    (buf.length < 122 ∧ agreesWithPrefix buf ∧ endsWithEom buf = false ∧
      s.afterAppend buf = s.endWith (.accumulating buf) .accum none) := by
  by_cases h1 : 122 ≤ buf.length
  · exact .inl ⟨h1, afterAppend_oversize h1⟩
  · have h1' : buf.length < 122 := by omega
    by_cases h2 : agreesWithPrefix buf
    · cases h3 : endsWithEom buf with
      | true => exact .inr (.inr (.inl ⟨h1', h2, rfl, afterAppend_completes h1' h2 h3⟩))
      | false => exact .inr (.inr (.inr ⟨h1', h2, rfl, afterAppend_continues h1' h2 h3⟩))
    · exact .inr (.inl ⟨h1', h2, afterAppend_badPrefix h1' h2⟩)

theorem execFeed_append {s : State} {bs : List Byte} (c : Byte) (h : s.asm.appendsTo bs) :
    execFeed c s = .next (s.afterAppend (bs ++ [c])) := by
  unfold execFeed
  cases ha : s.asm with
  | empty =>
    rw [ha] at h
    cases h
    rfl
  | accumulating bytes =>
    rw [ha] at h
    cases h
    rfl
  | corrupt =>
    rw [ha] at h
    exact h.elim

theorem execFeed_corrupt {s : State} (c : Byte) (h : s.asm = .corrupt) : execFeed c s = .next (s.whileCorrupt c) := by
  simp only [execFeed, h]

/-- The two arms of `FEED` (R95). -/
theorem corrupt_or_appends (a : Assembler) : a = .corrupt ∨ ∃ bs, a.appendsTo bs := by
  cases a with
  | empty => exact .inr ⟨[], rfl⟩
  | accumulating bytes => exact .inr ⟨bytes, rfl⟩
  | corrupt => exact .inl rfl

theorem whileCorrupt_lineEnd (s : State) : s.whileCorrupt 0x0A = s.toEmpty .resync := by
  rw [State.whileCorrupt, Config.resyncByte_eq, if_pos rfl]

theorem whileCorrupt_other {s : State} {c : Byte} (h : c ≠ 0x0A) : s.whileCorrupt c = s.keep .swallow := by
  rw [State.whileCorrupt, Config.resyncByte_eq, if_neg h]

theorem appendsTo_bytes {a : Assembler} {bs : List Byte} (h : a.appendsTo bs) : a.bytes = bs := by
  cases a with
  | empty => exact h.symm
  | accumulating bytes => exact h.symm
  | corrupt => exact h.elim

/-- The prefix test byte by byte. -/
theorem agreesWithPrefix_iff (buf : List Byte) :
    agreesWithPrefix buf ↔ ∀ i, i < min buf.length 8 → buf[i]? = Config.framePrefix[i]? := by
  constructor
  · intro h i hi
    have := congrArg (fun l => l[i]?) h
    simpa only [List.getElem?_take, hi, if_true] using this
  · intro h
    refine List.ext_getElem? fun i => ?_
    by_cases hi : i < min buf.length 8
    · simpa only [List.getElem?_take, hi, if_true] using h i hi
    · simp only [List.getElem?_take, hi, if_false]

/-- What R24 says of the bytes a `FEED` appends to. -/
theorem inv_of_appendsTo {s : State} {bs : List Byte} (hi : s.Inv) (h : s.asm.appendsTo bs) :
    bs.length ≤ 121 ∧ agreesWithPrefix bs ∧ endsWithEom bs = false := by
  unfold State.Inv at hi
  cases ha : s.asm with
  | empty =>
    rw [ha] at h
    cases h
    exact ⟨by simp, rfl, rfl⟩
  | accumulating bytes =>
    rw [ha] at h hi
    cases h
    exact ⟨hi.bounded, (prefixMatches_iff _).mp hi.startsRight, hi.stillOpen⟩
  | corrupt =>
    rw [ha] at h
    exact h.elim

/-- A completing `FEED` is the completion arm (R101, R113). -/
theorem execFeed_completes {s : State} {frame : List Byte} (h : s.completesWith frame) :
    execFeed 0x0A s = .next (s.complete frame) := by
  obtain ⟨bs, ha, rfl, hlast, hlen, hp⟩ := h
  rw [execFeed_append _ ha, afterAppend_completes hlen hp ((endsWithEom_snoc _ _).mpr ⟨hlast, rfl⟩)]

/-- Everything an operation can do. -/
theorem exec_cases {i : Instr} {s t : State} (h : exec i s = .next t) :
    (i = .nop ∧ t = s.keep .idle) ∨
    (i = .clear ∧ t = s.toEmpty .cleared) ∨
    (i = .reserved ∧ t = s.keep .illegalCmd) ∨
    (∃ acc data, i = .crcUpd acc data ∧ t = { s with crcUpdOut := some (crcUpdate s.params acc data) }) ∨
    (∃ acc, i = .crcFin acc ∧ t = { s with crcFinOut := some (crcFinish s.params acc) }) ∨
    (∃ c, i = .feed c ∧ s.asm = .corrupt ∧ t = s.whileCorrupt c) ∨
    (∃ c bs, i = .feed c ∧ s.asm.appendsTo bs ∧ t = s.afterAppend (bs ++ [c])) := by
  cases i with
  | nop => exact .inl ⟨rfl, (Host.Outcome.next.inj h).symm⟩
  | clear => exact .inr (.inl ⟨rfl, (Host.Outcome.next.inj h).symm⟩)
  | reserved => exact .inr (.inr (.inl ⟨rfl, (Host.Outcome.next.inj h).symm⟩))
  | crcUpd acc data => exact .inr (.inr (.inr (.inl ⟨acc, data, rfl, (Host.Outcome.next.inj h).symm⟩)))
  | crcFin acc => exact .inr (.inr (.inr (.inr (.inl ⟨acc, rfl, (Host.Outcome.next.inj h).symm⟩))))
  | feed c =>
    rcases corrupt_or_appends s.asm with ha | ⟨bs, ha⟩
    · refine .inr (.inr (.inr (.inr (.inr (.inl ⟨c, rfl, ha, ?_⟩)))))
      exact (Host.Outcome.next.inj ((execFeed_corrupt c ha).symm.trans h)).symm
    · refine .inr (.inr (.inr (.inr (.inr (.inr ⟨c, bs, rfl, ha, ?_⟩)))))
      exact (Host.Outcome.next.inj ((execFeed_append c ha).symm.trans h)).symm

end Sys2Proof.Machine
end

