-- ==== Sys2Proof/Laws/Decode.lean ====
section
/-! SUPPORT. The command word's two fields (spec 30, R62): how they are put together and taken apart. -/

namespace Sys2Proof

/-- The high field of a concatenation. -/
theorem extractLsb'_append_high {m n : Nat} (a : BitVec m) (b : BitVec n) : (a ++ b).extractLsb' n m = a := by
  refine BitVec.eq_of_getLsbD_eq fun i hi => ?_
  simp [BitVec.getLsbD_append, hi]

/-- The low field of a concatenation. -/
theorem extractLsb'_append_low {m n : Nat} (a : BitVec m) (b : BitVec n) : (a ++ b).extractLsb' 0 n = b := by
  refine BitVec.eq_of_getLsbD_eq fun i hi => ?_
  simp [BitVec.getLsbD_append, hi]

@[simp] theorem cmdOp_cmdWord (op : BitVec 2) (data : Byte) : cmdOp (cmdWord op data) = op := extractLsb'_append_high op data

@[simp] theorem cmdData_cmdWord (op : BitVec 2) (data : Byte) : cmdData (cmdWord op data) = data := extractLsb'_append_low op data

/-- `op = 00` (R63). -/
theorem decodeCommand_nop {w : BitVec 10} (h : cmdOp w = 0b00) : decodeCommand w = .nop := by
  simp [decodeCommand, h]

/-- `op = 01` (R63). -/
theorem decodeCommand_feed {w : BitVec 10} (h : cmdOp w = 0b01) : decodeCommand w = .feed (cmdData w) := by
  simp [decodeCommand, h]

/-- `op = 10` (R63). -/
theorem decodeCommand_clear {w : BitVec 10} (h : cmdOp w = 0b10) : decodeCommand w = .clear := by
  simp [decodeCommand, h]

/-- `op = 11` (R63). -/
theorem decodeCommand_reserved {w : BitVec 10} (h : cmdOp w = 0b11) : decodeCommand w = .reserved := by
  simp [decodeCommand, h]

end Sys2Proof
end

