-- ==== Sys2Proof/Laws/PerInstr.lean ====
section
/-! SUPPORT. A fact of the syntax, instruction by instruction: the word `encode` writes stands on the instruction's own port,
and a command's word selects the row of the opcode map (spec 30, R63, R67) that bears its mnemonic. -/

namespace Sys2Proof.Laws.OwnRow

/-- The port word is on the port of the instruction's row, and selects that row and no other. -/
def Statement (i : Instr) : Prop :=
  match i, encode i with
  | .nop, .command w => opcodeMap.filter (selects w) = [⟨"NOP", 0x300, 0x000⟩]
  | .feed _, .command w => opcodeMap.filter (selects w) = [⟨"FEED", 0x300, 0x100⟩]
  | .clear, .command w => opcodeMap.filter (selects w) = [⟨"CLEAR", 0x300, 0x200⟩]
  | .reserved, .command w => opcodeMap.filter (selects w) = [⟨"RESERVED", 0x300, 0x300⟩]
  | .crcUpd acc data, .crcUpd u => u.extractLsb' 8 16 = acc ∧ u.extractLsb' 0 8 = data
  | .crcFin acc, .crcFin f => f = acc
  | _, _ => False

theorem nop : Statement .nop := by
  show opcodeMap.filter (selects (cmdWord 0b00 0)) = [⟨"NOP", 0x300, 0x000⟩]
  decide

theorem feed (c : Byte) : Statement (.feed c) := by
  have h : ∀ c : Byte, opcodeMap.filter (selects (cmdWord 0b01 c)) = [⟨"FEED", 0x300, 0x100⟩] := by decide
  exact h c

theorem clear : Statement .clear := by
  show opcodeMap.filter (selects (cmdWord 0b10 0)) = [⟨"CLEAR", 0x300, 0x200⟩]
  decide

theorem reserved : Statement .reserved := by
  show opcodeMap.filter (selects (cmdWord 0b11 0)) = [⟨"RESERVED", 0x300, 0x300⟩]
  decide

theorem crcUpd (acc : Word) (data : Byte) : Statement (.crcUpd acc data) :=
  ⟨extractLsb'_append_high acc data, extractLsb'_append_low acc data⟩

theorem crcFin (acc : Word) : Statement (.crcFin acc) := rfl

end Sys2Proof.Laws.OwnRow
end

