-- ==== Sys2Proof/Laws/Step.lean ====
section
/-! SUPPORT. What a step and a run do (spec 00 R17, spec 70 R162), in the form later proofs cite. -/

namespace Sys2Proof.Machine

theorem step_idle {s : State} (h : s.input = []) : step s = .next s := by
  simp only [step, h]

theorem step_word {s : State} {w : PortWord} {rest : List Stimulus} (h : s.input = .word w :: rest) :
    step s = exec (decode w) { s with input := rest } := by
  simp only [step, h]

theorem step_reset {s : State} {rest : List Stimulus} (h : s.input = .reset :: rest) :
    step s = .next (State.resetEvent { s with input := rest }) := by
  simp only [step, h]

/-- Everything a step can do. -/
theorem step_cases {s t : State} (h : step s = .next t) :
    (s.input = [] ∧ t = s) ∨
    (∃ w rest, s.input = .word w :: rest ∧ exec (decode w) { s with input := rest } = .next t) ∨
    (∃ rest, s.input = .reset :: rest ∧ t = State.resetEvent { s with input := rest }) := by
  match hi : s.input with
  | [] =>
    rw [step_idle hi] at h
    exact .inl ⟨rfl, (Host.Outcome.next.inj h).symm⟩
  | .word w :: rest =>
    rw [step_word hi] at h
    exact .inr (.inl ⟨w, rest, rfl, h⟩)
  | .reset :: rest =>
    rw [step_reset hi] at h
    exact .inr (.inr ⟨rest, rfl, (Host.Outcome.next.inj h).symm⟩)

@[simp] theorem run_nil (s : State) : run [] s = some ([], s) := rfl

theorem run_cons {i : Instr} {s t : State} (is : List Instr) (h : exec i s = .next t) :
    run (i :: is) s = (run is t).map fun q => (reportsOf i t ++ q.1, q.2) := by
  simp only [run, h]

/-- A run of a sequence is a run of its first part followed by a run of the rest. -/
theorem run_append {is js : List Instr} {s t : State} {rs : List Report} (h : run is s = some (rs, t)) :
    run (is ++ js) s = (run js t).map fun q => (rs ++ q.1, q.2) := by
  induction is generalizing s rs with
  | nil =>
    simp only [run_nil, Option.some.injEq, Prod.mk.injEq] at h
    obtain ⟨rfl, rfl⟩ := h
    simp
  | cons i is ih =>
    cases he : exec i s with
    | next u =>
      rw [run_cons is he, Option.map_eq_some_iff] at h
      obtain ⟨⟨qs, t'⟩, hq, heq⟩ := h
      simp only [Prod.mk.injEq] at heq
      obtain ⟨rfl, rfl⟩ := heq
      rw [List.cons_append, run_cons _ he, ih hq, Option.map_map]
      simp [Function.comp_def]
    | fault r => simp [run, he] at h
    | refused r => simp [run, he] at h

@[simp] theorem feeds_nil : feeds [] = [] := rfl
@[simp] theorem feeds_cons (b : Byte) (bs : List Byte) : feeds (b :: bs) = .feed b :: feeds bs := rfl
@[simp] theorem feeds_append (bs cs : List Byte) : feeds (bs ++ cs) = feeds bs ++ feeds cs := by simp [feeds]

end Sys2Proof.Machine
end

