-- ==== Sys2Proof/Tests/Slice0.lean ====
section
/-! SUPPORT. The model's own tests. Expected values are the spec's: words from the encodings of spec 30 (R62, R63, R67),
results from the examples of the rules and the vectors of spec 95. Then, for every statement with hypotheses, a state and
operands that meet them all. -/

open Sys2Proof Sys2Proof.Machine

namespace Sys2Proof.Tests

/-- The state an operation answers, if it answers one. -/
def nextOf (o : Host.Outcome State Fault Refusal) : Option State :=
  match o with
  | .next t => some t
  | .fault _ => none
  | .refused _ => none

/-- The reset state with the given assembler state. -/
def having (a : Assembler) : State := { State.reset with asm := a }

/-- The same with bytes in the buffer. -/
def holding (bytes : List Byte) : State := having (.accumulating bytes)

/-- What an operation leaves: the assembler state and the report. -/
def effect (i : Instr) (s : State) : Option (Assembler × Option Report) :=
  (nextOf (exec i s)).map fun t => (t.asm, t.result)

/-- A buffer of `8 + n` bytes that begins with `PREFIX` (spec 95, A15). -/
def padded (n : Nat) : List Byte := Config.framePrefix ++ List.replicate n 0x55

/-- The Hello frame of spec 95, A1, without its last byte, with the given two checksum bytes. -/
def helloOpen (x y : Byte) : List Byte := Config.framePrefix ++ [0x01, 0x00, 0x00, 0x00, x, y, 0x0D]

/-- The frame of spec 95, A2, without its last byte. -/
def unknownOpen : List Byte := Config.framePrefix ++ [0x0F, 0x27, 0x00, 0x00, 0xC6, 0xCB, 0x0D]

/-! ### Decoding: words written out from the encodings of R62, R63 and R67 -/

theorem test_decode_nop : decode (.command 0b0000000000) = .nop := by decide
theorem test_decode_nop_ignores_data : decode (.command 0b0010101011) = .nop := by decide
theorem test_decode_feed : decode (.command 0b0101001011) = .feed 0x4B := by decide
theorem test_decode_clear : decode (.command 0b1000000000) = .clear := by decide
theorem test_decode_clear_ignores_data : decode (.command 0b1011111111) = .clear := by decide
theorem test_decode_reserved : decode (.command 0b1101010101) = .reserved := by decide
theorem test_decode_crcUpd : decode (.crcUpd 0b000100100011010001010110) = .crcUpd 0x1234 0x56 := by decide
theorem test_decode_crcFin : decode (.crcFin 0b0101110101010111) = .crcFin 0x5D57 := by decide
theorem test_encode_words : [Instr.nop, .feed 0x4B, .clear, .reserved, .crcUpd 0xEB3F 0x42, .crcFin 0x5D57].map encode =
    [.command 0x000, .command 0x14B, .command 0x200, .command 0x300, .crcUpd 0xEB3F42, .crcFin 0x5D57] := by decide
theorem test_decode_rejects_wide_command : decodeRaw ⟨.command, 0x400⟩ = .error (.tooWide .command 0x400) := by rfl
theorem test_decode_raw_command : decodeRaw ⟨.command, 0x3FF⟩ = .ok .reserved := by rfl

/-! ### Well-formedness: an ill-formed term for each check -/

theorem test_wellFormed_refuses_wide_command : RawWord.wellFormed ⟨.command, 1024⟩ = false := by decide
theorem test_wellFormed_refuses_wide_crcUpd : RawWord.wellFormed ⟨.crcUpd, 2 ^ 24⟩ = false := by decide
theorem test_wellFormed_refuses_wide_crcFin : RawWord.wellFormed ⟨.crcFin, 2 ^ 16⟩ = false := by decide
theorem test_wellFormed_accepts_widest : RawWord.wellFormed ⟨.crcUpd, 2 ^ 24 - 1⟩ = true := by decide
theorem test_wellFormed_refuses_hello_unknown :
    Params.wellFormed { Config.profileK with knownIds := .only [] } = false := by decide
theorem test_wellFormed_refuses_9999_known :
    Params.wellFormed { Config.profileK with knownIds := .allBut [] } = false := by decide
theorem test_wellFormed_profiles : Params.wellFormed Config.profileK = true ∧ Params.wellFormed Config.profileF = true := by
  decide

/-! ### One operation each: the examples of the rules and of spec 95 -/

/-- R94, with `len = 4`. -/
theorem test_nop : effect .nop (holding (Config.framePrefix.take 4)) =
    some (.accumulating [0x4B, 0x42, 0x53, 0x50], some ⟨.idle, none⟩) := by decide

/-- R106. -/
theorem test_clear : effect .clear (having .corrupt) = some (.empty, some ⟨.cleared, none⟩) := by decide

/-- R107; spec 95, A26. -/
theorem test_reserved : effect .reserved (having .corrupt) = some (.corrupt, some ⟨.illegalCmd, none⟩) := by decide

/-- Spec 95, A1: the step that completes the Hello frame. -/
theorem test_feed_delivers : effect (.feed 0x0A) (holding (helloOpen 0xBA 0xEA)) =
    some (.empty, some ⟨.frameOk, some ⟨1, 0, 0, true, []⟩⟩) := by decide +kernel

/-- Spec 95, A1, under profile F: the other checksum bytes. -/
theorem test_feed_delivers_profileF :
    effect (.feed 0x0A) { holding (helloOpen 0x78 0xF0) with params := Config.profileF } =
      some (.empty, some ⟨.frameOk, some ⟨1, 0, 0, true, []⟩⟩) := by decide +kernel

/-- Spec 95, section 2.3: `CRCUPD` of the operand word `0x123456` under profiles K and F. -/
theorem test_crcUpd : (nextOf (exec (.crcUpd 0x1234 0x56) State.reset)).map State.crcUpdOut = some (some 0xCB9F) ∧
    (nextOf (exec (.crcUpd 0x1234 0x56) { State.reset with params := Config.profileF })).map State.crcUpdOut =
      some (some 0x3C40) := by decide +kernel

/-- Spec 95, section 2.3: `CRCFIN 0x5D57` under profile K, and under X-25. -/
theorem test_crcFin : (nextOf (exec (.crcFin 0x5D57) State.reset)).map State.crcFinOut = some (some 0xEABA) ∧
    crcFinish { Config.profileK with crcXorOut := 0xFFFF } 0x5D57 = 0x1545 := by decide +kernel

/-- Spec 95, section 2.1: a span under profiles K and F. -/
theorem test_compute : compute Config.profileK [0x0D, 0x0A] = 0x1F22 ∧ compute Config.profileF [0x0D, 0x0A] = 0xCA19 := by
  decide +kernel

/-- Spec 95, A3: the frame a sender writes. -/
theorem test_frameEncode : frameEncode Config.profileK 1 [0x01, 0x02, 0x03] =
    Config.framePrefix ++ [0x01, 0x00, 0x03, 0x00, 0x01, 0x02, 0x03, 0xEA, 0xAB, 0x0D, 0x0A] := by decide +kernel

/-- Spec 95, A29: the checksum field high byte first. -/
theorem test_field_big_endian :
    effect (.feed 0x0A) { holding (helloOpen 0xEA 0xBA) with params := { Config.profileK with crcFieldBE := true } } =
      some (.empty, some ⟨.frameOk, some ⟨1, 0, 0, true, []⟩⟩) := by decide +kernel

/-- R66: the largest reachable status word (spec 95, A15). -/
theorem test_status : (holding (padded 113)).status = 0x0F9 := by decide +kernel

/-- R64: bits of the flattened record port. -/
theorem test_outBit : (List.range 8).map (fun j => outBit 0 (some ⟨1, 3, 3, true, [0x01, 0x02, 0x03]⟩) (49 + j)) =
    [false, true, false, false, false, false, false, false] := by decide

/-- R74: `FEED 0x4B ; K`. -/
theorem test_asm_feed :
    parseLine ['F', 'E', 'E', 'D', ' ', '0', 'x', '4', 'B', ' ', ';', 'K'] = some (.instr (.feed 0x4B)) := by decide

/-- R75; spec 95, P3: `FRAMERAW 1, 5, [01 02]`. -/
theorem test_asm_frameRaw :
    parseLine ['F', 'R', 'A', 'M', 'E', 'R', 'A', 'W', ' ', '1', ',', ' ', '5', ',', ' ', '[', '0', '1', ' ', '0', '2', ']'] =
      some (.pseudo (.frameRaw 1 5 [0x01, 0x02])) := by decide

/-! ### Witnesses: for each statement with hypotheses, a state and operands that meet them -/

theorem witness_ResetEventEmptiesAssembler :
    ({ holding [0x4B] with input := [.reset] } : State).input = .reset :: [] := by decide

theorem witness_StepRunsPresentedWord :
    ({ State.reset with input := [.word (.command 0x14B)] } : State).input = .word (.command 0x14B) :: [] ∧
    State.reset.input = [] := by decide

theorem witness_FetchWordRunsItsInstruction :
    decodeTableWord 16 0x3FF = some .reserved ∧ decodeTableWord 16 0x400 = some (.crcFin 0x400) ∧
    decodeTableWord 24 0x123456 = some (.crcUpd 0x1234 0x56) ∧ decodeTableWord 16 0x14B = some (.feed 0x4B) := by decide

theorem witness_CommandWordSelectsOneRow :
    (0x0FF : BitVec 10) &&& 0x300 = 0x000 ∧ (0x1FF : BitVec 10) &&& 0x300 = 0x100 ∧
    (0x200 : BitVec 10) &&& 0x300 = 0x200 ∧ (0x3FF : BitVec 10) &&& 0x300 = 0x300 := by decide

theorem witness_FeedResynchronises : (having .corrupt).asm = .corrupt := by decide

theorem witness_FeedSwallows : (having .corrupt).asm = .corrupt ∧ (0x0D : Byte) ≠ 0x0A := by decide

theorem padded_inv (n : Nat) (h : n = 113 ∨ n = 112) : (holding (padded n)).Inv := by
  rcases h with rfl | rfl <;> exact ⟨by decide +kernel, by decide +kernel, by decide +kernel, by decide +kernel⟩

theorem witness_FeedOversize : (holding (padded 113)).asm.appendsTo (padded 113) ∧ 122 ≤ (padded 113).length + 1 ∧
    (holding (padded 113)).Inv := ⟨rfl, by decide, padded_inv 113 (.inl rfl)⟩

theorem witness_FeedBadPrefix_first : State.reset.asm.appendsTo [] ∧ ([] : List Byte).length + 1 < 122 ∧
    ¬ agreesWithPrefix ([] ++ [0x0A]) ∧ State.reset.Inv := ⟨rfl, by decide, by unfold agreesWithPrefix; decide, trivial⟩

theorem witness_FeedBadPrefix_eighth :
    (holding (Config.framePrefix.take 7)).asm.appendsTo (Config.framePrefix.take 7) ∧
    (Config.framePrefix.take 7).length + 1 < 122 ∧ ¬ agreesWithPrefix (Config.framePrefix.take 7 ++ [0x3B]) ∧
    (holding (Config.framePrefix.take 7)).Inv :=
  ⟨rfl, by decide, by unfold agreesWithPrefix; decide, ⟨by decide, by decide, by decide, by decide⟩⟩

theorem witness_FeedContinues_first : State.reset.asm.appendsTo [] ∧ ([] : List Byte).length + 1 < 122 ∧
    agreesWithPrefix ([] ++ [0x4B]) ∧ ¬ (([] : List Byte).getLast? = some 0x0D ∧ (0x4B : Byte) = 0x0A) :=
  ⟨rfl, by decide, by unfold agreesWithPrefix; decide, by decide⟩

theorem witness_FeedContinues_last : (holding (padded 112)).asm.appendsTo (padded 112) ∧ (padded 112).length + 1 = 121 ∧
    agreesWithPrefix (padded 112 ++ [0x0A]) ∧ ¬ ((padded 112).getLast? = some 0x0D ∧ (0x0A : Byte) = 0x0A) :=
  ⟨rfl, by decide, by unfold agreesWithPrefix; decide, by decide⟩

/-- A buffer one byte short of its end marker completes. -/
theorem completesWith_of {bs : List Byte} (h1 : bs.getLast? = some 0x0D) (h2 : (bs ++ [0x0A]).length < 122)
    (h3 : agreesWithPrefix (bs ++ [0x0A])) : (holding bs).completesWith (bs ++ [0x0A]) := ⟨bs, rfl, rfl, h1, h2, h3⟩

theorem witness_FeedDropsRunt_shortest :
    (holding (Config.framePrefix ++ [0x0D])).completesWith (Config.framePrefix ++ [0x0D] ++ [0x0A]) ∧
    (Config.framePrefix ++ [0x0D] ++ [0x0A]).length = 10 :=
  ⟨completesWith_of (by decide) (by decide) (by unfold agreesWithPrefix; decide), by decide⟩

/-- Spec 95, A16: the 15-byte runt. -/
theorem witness_FeedDropsRunt_longest :
    (holding (Config.framePrefix ++ [0x01, 0x00, 0x00, 0x00, 0x41, 0x0D])).completesWith
      (Config.framePrefix ++ [0x01, 0x00, 0x00, 0x00, 0x41, 0x0D] ++ [0x0A]) ∧
    (Config.framePrefix ++ [0x01, 0x00, 0x00, 0x00, 0x41, 0x0D] ++ [0x0A]).length = 15 :=
  ⟨completesWith_of (by decide) (by decide) (by unfold agreesWithPrefix; decide), by decide⟩

theorem hello_completes (x y : Byte) : (holding (helloOpen x y)).completesWith (helloOpen x y ++ [0x0A]) :=
  completesWith_of rfl (by simp [helloOpen]) rfl

/-- Spec 95, A5. -/
theorem witness_FeedDropsBadChecksum : let frame := helloOpen 0xBB 0xEA ++ [0x0A]
    (holding (helloOpen 0xBB 0xEA)).completesWith frame ∧ 16 ≤ frame.length ∧
    frame[frame.length - 4]? = some 0xBB ∧ frame[frame.length - 3]? = some 0xEA ∧
    compute Config.profileK (frame.take (frame.length - 4)) ≠ ((0xEA : Byte) ++ (0xBB : Byte)) :=
  ⟨hello_completes 0xBB 0xEA, by decide, by decide, by decide, by decide +kernel⟩

/-- The same with the field high byte first (spec 95, A29). -/
theorem witness_FeedDropsBadChecksum_bigEndian : let frame := helloOpen 0xBA 0xEA ++ [0x0A]
    frame[frame.length - 4]? = some 0xBA ∧ frame[frame.length - 3]? = some 0xEA ∧
    compute { Config.profileK with crcFieldBE := true } (frame.take (frame.length - 4)) ≠ ((0xBA : Byte) ++ (0xEA : Byte)) :=
  ⟨by decide, by decide, by decide +kernel⟩

/-- Spec 95, A2. -/
theorem witness_FeedDropsUnknownType : let frame := unknownOpen ++ [0x0A]
    (holding unknownOpen).completesWith frame ∧ 16 ≤ frame.length ∧
    frame[frame.length - 4]? = some 0xC6 ∧ frame[frame.length - 3]? = some 0xCB ∧
    frame[8]? = some 0x0F ∧ frame[9]? = some 0x27 ∧
    compute Config.profileK (frame.take (frame.length - 4)) = ((0xCB : Byte) ++ (0xC6 : Byte)) ∧
    Config.profileK.knownIds.knows ((0x27 : Byte) ++ (0x0F : Byte)) = false :=
  ⟨completesWith_of (by decide) (by decide) (by unfold agreesWithPrefix; decide), by decide, by decide, by decide, by decide,
    by decide, by decide +kernel, by decide⟩

/-- Spec 95, A1. -/
theorem witness_FeedDeliversRecord : let frame := helloOpen 0xBA 0xEA ++ [0x0A]
    (holding (helloOpen 0xBA 0xEA)).completesWith frame ∧ 16 ≤ frame.length ∧
    frame[frame.length - 4]? = some 0xBA ∧ frame[frame.length - 3]? = some 0xEA ∧
    frame[8]? = some 0x01 ∧ frame[9]? = some 0x00 ∧ frame[10]? = some 0x00 ∧ frame[11]? = some 0x00 ∧
    compute Config.profileK (frame.take (frame.length - 4)) = ((0xEA : Byte) ++ (0xBA : Byte)) ∧
    Config.profileK.knownIds.knows ((0x00 : Byte) ++ (0x01 : Byte)) = true :=
  ⟨hello_completes 0xBA 0xEA, by decide, by decide, by decide, by decide, by decide, by decide, by decide,
    by decide +kernel, by decide⟩

theorem witness_CrcUpdResult : Config.profileK.crcRefIn = true ∧ Config.profileF.crcRefIn = false := by decide

theorem witness_CrcFinResult : Config.profileF.crcRefOut = false ∧ Config.profileF.crcXorOut = 0 := by decide

theorem witness_CrcUpdateLinearAndTable : Config.profileF.crcRefIn = false := by decide

theorem witness_ReflectedFormAgrees : Config.profileK.crcRefIn = true ∧ Config.profileK.crcRefOut = true := by decide

theorem witness_ResidueTestAcceptsSameFrames :
    (Config.profileK.crcXorOut = 0 ∧ Config.profileK.crcRefIn = Config.profileK.crcRefOut ∧
      Config.profileK.crcFieldBE = !Config.profileK.crcRefIn) ∧
    (let p := { Config.profileF with crcFieldBE := true }; p.crcXorOut = 0 ∧ p.crcRefIn = p.crcRefOut ∧ p.crcFieldBE = !p.crcRefIn) := by decide

theorem witness_NeighbouringBytesErrorDetected : ((0x0D : Byte), (0x0A : Byte)) ≠ (0x0D, 0x0B) := by decide

/-- The block with one presented word. -/
def presented (a : Assembler) (w : BitVec 10) : State := { having a with input := [.word (.command w)] }

theorem witness_StepKeepsRegisterInvariant :
    RegisterInv (presented .empty 0x14B) ∧ ∃ t, step (presented .empty 0x14B) = .next t := by
  refine ⟨⟨?_, ?_, ?_, ?_, ?_, ?_⟩, _, rfl⟩ <;> simp [presented, having, State.st, State.len]

theorem witness_BufferNeverHoldsEndMarker :
    (presented (.accumulating [0x4B]) 0x142).asm.holdsNoEom ∧ ∃ t, step (presented (.accumulating [0x4B]) 0x142) = .next t := by
  refine ⟨fun i hi => ?_, _, rfl⟩
  rcases i with _ | i <;> simp [presented, having, eomAt] at hi

theorem witness_StatusWordLegal : (having .empty).Inv ∧ (holding [0x4B]).Inv ∧ (holding (padded 113)).Inv ∧
    (having .corrupt).Inv :=
  ⟨trivial, ⟨by decide, by decide, by decide, by decide⟩, padded_inv 113 (.inl rfl), trivial⟩

theorem witness_TransitionTable_oversize : (holding (padded 113)).Inv ∧
    (holding (padded 113)).asm.appendsTo (padded 113) ∧ (padded 113).length + 1 = 122 :=
  ⟨padded_inv 113 (.inl rfl), rfl, by decide⟩

theorem witness_TransitionTable_prefix : (holding (Config.framePrefix.take 7)).Inv ∧
    (Config.framePrefix.take 7).length + 1 ≤ 8 ∧ Config.framePrefix[(Config.framePrefix.take 7).length]? ≠ some 0x3B :=
  ⟨⟨by decide, by decide, by decide, by decide⟩, by decide, by decide⟩

theorem witness_TransitionTable_complete : (holding (Config.framePrefix ++ [0x0D])).Inv ∧
    10 ≤ (Config.framePrefix ++ [0x0D]).length + 1 ∧ (Config.framePrefix ++ [0x0D]).length + 1 ≤ 121 ∧
    (Config.framePrefix ++ [0x0D]).getLast? = some 0x0D :=
  ⟨⟨by decide, by decide, by decide, by decide⟩, by decide, by decide, by decide⟩

theorem witness_TransitionTable_continue : (holding (padded 112)).Inv ∧ (padded 112).length + 1 ≤ 121 ∧
    ((padded 112).length + 1 ≤ 8 → Config.framePrefix[(padded 112).length]? = some 0x55) ∧
    ¬ (10 ≤ (padded 112).length + 1 ∧ (padded 112).getLast? = some 0x0D ∧ (0x55 : Byte) = 0x0A) :=
  ⟨padded_inv 112 (.inr rfl), by decide, by decide, by decide⟩

theorem witness_TransitionTable_corrupt : (having .corrupt).Inv ∧ (having .corrupt).asm = .corrupt ∧ (0x4B : Byte) ≠ 0x0A :=
  ⟨trivial, rfl, by decide⟩

theorem witness_TransitionTable_empty : State.reset.Inv ∧ State.reset.asm = .empty ∧ (0x0A : Byte) ≠ 0x4B :=
  ⟨trivial, rfl, by decide⟩

theorem witness_CauseTellsStateAfter : Instr.isCommand (.feed 0x4B) = true ∧ ∃ t, exec (.feed 0x4B) State.reset = .next t :=
  ⟨rfl, _, rfl⟩

theorem witness_RecordOnlyWithFrameOk : Instr.isCommand (.feed 0x0A) = true ∧
    ∃ t, exec (.feed 0x0A) (holding (helloOpen 0xBA 0xEA)) = .next t := ⟨rfl, _, rfl⟩

theorem witness_DeliveredRecordBounds : ∃ t, exec (.feed 0x0A) (holding (helloOpen 0xBA 0xEA)) = .next t ∧
    t.result = some ⟨.frameOk, some ⟨1, 0, 0, true, []⟩⟩ := ⟨_, rfl, by decide +kernel⟩

theorem witness_OutWordLayout : 104 < 105 ∧ (List.replicate 105 (0x41 : Byte))[104]? = some 0x41 := by decide

theorem witness_PrefixTestIsOneComparison : prefixMatches [] = true ∧ prefixMatches (Config.framePrefix.take 7) = true ∧
    prefixMatches Config.framePrefix = true := by decide

theorem witness_ShortestCompletion :
    (holding (Config.framePrefix ++ [0x0D])).asm = .accumulating (Config.framePrefix ++ [0x0D]) ∧
    (holding (Config.framePrefix ++ [0x0D])).completesWith (Config.framePrefix ++ [0x0D] ++ [0x0A]) :=
  ⟨rfl, witness_FeedDropsRunt_shortest.1⟩

theorem witness_FeedDependsOnThreeQuestions : ((0x00 : Byte) = 0x0A ↔ (0x01 : Byte) = 0x0A) ∧
    ∀ bs, State.reset.asm.appendsTo bs → bs.length < 8 →
      (Config.framePrefix[bs.length]? = some 0x00 ↔ Config.framePrefix[bs.length]? = some 0x01) := by
  refine ⟨by decide, fun bs h _ => ?_⟩
  cases (show bs = [] from h)
  decide

theorem witness_OutputsNeverFeedBack : State.reset.asm = ({ State.reset with freeIdx := 7 } : State).asm ∧
    State.reset.params = ({ State.reset with freeIdx := 7 } : State).params := ⟨rfl, rfl⟩

theorem witness_EndingsLeadToEmpty : ∃ t, exec .clear (holding [0x4B]) = .next t ∧ t.result = some ⟨.cleared, none⟩ :=
  ⟨_, rfl, rfl⟩

theorem witness_CommandFrame : Instr.isCommand .nop = true ∧ ∃ t, exec .nop State.reset = .next t := ⟨rfl, _, rfl⟩

theorem witness_CrcPortFrame : (having .corrupt).params = State.reset.params := rfl

theorem witness_BufferFrame_write : ∃ t, exec (.feed 0x42) (holding [0x4B]) = .next t ∧ t.asm = .accumulating [0x4B, 0x42] :=
  ⟨_, rfl, by decide⟩

theorem witness_BufferFrame_end : ∃ t, exec (.feed 0x43) (holding [0x4B]) = .next t ∧ ¬ ∃ bytes, t.asm = .accumulating bytes := by
  refine ⟨_, rfl, ?_⟩
  rintro ⟨bytes, h⟩
  cases h

theorem witness_BufferFrame_rest : ∃ t, exec (.crcFin 1) (holding [0x4B]) = .next t ∧ (∀ c, Instr.crcFin 1 ≠ .feed c) ∧
    Instr.crcFin 1 ≠ .clear := ⟨_, rfl, by simp, by simp⟩

theorem witness_ParametersNeverChange : (∃ t, step (presented .empty 0x200) = .next t) ∧
    ∃ t, run [.nop] State.reset = some ([silent .idle], t) := ⟨⟨_, rfl⟩, _, rfl⟩

theorem witness_CorruptingByteIsConsumed : State.reset.asm = .empty ∧ (0x0A : Byte) ∉ [(0x4B : Byte), 0x0D] := by decide

theorem witness_ResyncAtNextLineEnd : (having .corrupt).asm = .corrupt ∧ (0x0A : Byte) ∉ [(0x4B : Byte), 0x0D] := by decide

theorem witness_AccumulatingEndsWithinBound : (holding (padded 113)).Inv ∧
    (holding (padded 113)).asm = .accumulating (padded 113) ∧ [(0x0A : Byte)].length = 122 - (padded 113).length :=
  ⟨padded_inv 113 (.inl rfl), rfl, by decide⟩

theorem witness_RunKeepsBufferBounded : (holding (padded 113)).Inv := padded_inv 113 (.inl rfl)

theorem witness_RunFollowsSteps : (presented .empty 0x14B).input = [PortWord.command 0x14B].map .word ++ [] := by decide

theorem witness_WellFormedFrameDelivered : State.reset.asm = .empty ∧
    (frameEncode Config.profileK 1 []).length ≤ 121 ∧
    (∀ i, 8 ≤ i → i ≤ 12 → ¬ eomAt (frameEncode Config.profileK 1 []) i) ∧ Config.profileK.knownIds.knows 1 = true := by
  have h : frameEncode Config.profileK 1 [] = helloOpen 0xBA 0xEA ++ [0x0A] := by decide +kernel
  refine ⟨rfl, by rw [h]; decide, fun i h1 h2 => ?_, rfl⟩
  rw [h]
  interval_cases i <;> decide

/-- Spec 95, A22: the frame that declares 5 bytes and carries 3. -/
theorem witness_RawFrameDelivered : State.reset.asm = .empty ∧ [(0x01 : Byte), 0x02, 0x03].length ≤ 105 ∧
    (∀ i, 8 ≤ i → i ≤ (frameEncodeRaw Config.profileK 1 5 [0x01, 0x02, 0x03]).length - 4 →
      ¬ eomAt (frameEncodeRaw Config.profileK 1 5 [0x01, 0x02, 0x03]) i) ∧
    Config.profileK.knownIds.knows 1 = true := by
  have h : frameEncodeRaw Config.profileK 1 5 [0x01, 0x02, 0x03] =
      Config.framePrefix ++ [0x01, 0x00, 0x05, 0x00, 0x01, 0x02, 0x03, 0x72, 0x90, 0x0D, 0x0A] := by decide +kernel
  refine ⟨rfl, by decide, fun i h1 h2 => ?_, rfl⟩
  rw [h] at h2 ⊢
  have h3 : i ≤ 15 := h2
  interval_cases i <;> decide

theorem witness_UnknownIdFrameDropped : State.reset.asm = .empty ∧ ([] : List Byte).length ≤ 105 ∧
    (∀ i, 8 ≤ i → i ≤ (frameEncode Config.profileK 9999 []).length - 4 → ¬ eomAt (frameEncode Config.profileK 9999 []) i) ∧
    Config.profileK.knownIds.knows 9999 = false := by
  have h : frameEncode Config.profileK 9999 [] = unknownOpen ++ [0x0A] := by decide +kernel
  refine ⟨rfl, by decide, fun i h1 h2 => ?_, by decide⟩
  rw [h] at h2 ⊢
  have h3 : i ≤ 12 := h2
  interval_cases i <;> decide

/-- The checksum of a frame of 106 payload bytes `41`, in three pieces of the span. -/
theorem long_checksum : compute Config.profileK (frameBody 1 106 (List.replicate 106 0x41)) = 42727 := by
  have hsplit : frameBody 1 106 (List.replicate 106 0x41) =
      frameBody 1 106 [] ++ List.replicate 53 0x41 ++ List.replicate 53 0x41 := by decide +kernel
  have h0 : crcRegister Config.profileK (frameBody 1 106 []) = 63822 := by decide +kernel
  have h1 : (List.replicate 53 (0x41 : Byte)).foldl (crcUpdate Config.profileK) 63822 = 28393 := by decide +kernel
  have h2 : (List.replicate 53 (0x41 : Byte)).foldl (crcUpdate Config.profileK) 28393 = 59237 := by decide +kernel
  rw [compute, hsplit, crcRegister_append, crcRegister_append, h0, h1, h2]
  decide

theorem witness_OversizeFrameCorrupts : State.reset.asm = .empty ∧ 106 ≤ (List.replicate 106 (0x41 : Byte)).length ∧
    ∀ i, 8 ≤ i → i ≤ 119 → ¬ eomAt (frameEncode Config.profileK 1 (List.replicate 106 0x41)) i := by
  refine ⟨rfl, by decide, fun i h1 h2 => ?_⟩
  have hframe : frameEncode Config.profileK 1 (List.replicate 106 0x41) =
      frameBody 1 106 (List.replicate 106 0x41) ++ fieldBytes Config.profileK 42727 ++ Config.eom := by
    rw [← long_checksum]
    rfl
  have h : ∀ j, j < 112 → ¬ eomAt (frameBody 1 106 (List.replicate 106 0x41) ++ fieldBytes Config.profileK 42727 ++
      Config.eom) (8 + j) := by decide +kernel
  have := h (i - 8) (by omega)
  rwa [Nat.add_sub_cancel' h1, ← hframe] at this

theorem witness_FrameCutAtFirstEndMarker_shortest :
    Config.framePrefix <+: Config.framePrefix ++ [0x0D, 0x0A] ∧ 8 + 2 ≤ 121 ∧
    eomAt (Config.framePrefix ++ [0x0D, 0x0A]) 8 ∧ ∀ i, i < 8 → ¬ eomAt (Config.framePrefix ++ [0x0D, 0x0A]) i := by decide

theorem witness_FrameCutAtFirstEndMarker_longest :
    Config.framePrefix <+: padded 111 ++ [0x0D, 0x0A] ∧ 119 + 2 ≤ 121 ∧
    eomAt (padded 111 ++ [0x0D, 0x0A]) 119 ∧ ∀ i, i < 119 → ¬ eomAt (padded 111 ++ [0x0D, 0x0A]) i := by decide +kernel

end Sys2Proof.Tests
end

section
/-! PROOFS. The scope of the model (spec 00): the named constants, and that no operation and no step fails. -/

namespace Sys2Proof.Machine

/-- Settles O1: every constant computes to the value the spec names. -/
theorem constantsAsSpecified : Obligations.ConstantsAsSpecified :=
  ⟨rfl, Config.prefixLen_eq, Config.headerLen_eq, rfl, Config.eom_eq, Config.eomLen_eq, Config.cksumLen_eq,
    Config.resyncByte_eq, Config.maxLen_eq, rfl, rfl, rfl, Config.minFrame_eq, Config.trailerRegion_eq,
    Config.maxComplete_eq, Config.payloadDeliverableMax_eq, Config.bufCells_eq⟩

/-- `FEED` answers in both of its arms (R95). -/
theorem execFeed_answers (c : Byte) (s : State) : ∃ t, execFeed c s = .next t := by
  obtain hc | ⟨bs, ha⟩ := corrupt_or_appends s.asm
  · exact ⟨_, execFeed_corrupt c hc⟩
  · exact ⟨_, execFeed_append c ha⟩

/-- No operation faults or is refused (R129, R161). -/
theorem exec_answers (i : Instr) (s : State) : ∃ t, exec i s = .next t := by
  cases i with
  | nop => exact ⟨_, rfl⟩
  | feed c => exact execFeed_answers c s
  | clear => exact ⟨_, rfl⟩
  | reserved => exact ⟨_, rfl⟩
  | crcUpd acc data => exact ⟨_, execCrcUpd_eq acc data s⟩
  | crcFin acc => exact ⟨_, execCrcFin_eq acc s⟩

/-- No step faults or is refused, whatever the host presents (R17, R161). -/
theorem step_answers (s : State) : ∃ t, step s = .next t := by
  match hi : s.input with
  | [] => exact ⟨_, step_idle hi⟩
  | .word w :: rest =>
    rw [step_word hi]
    exact exec_answers (decode w) _
  | .reset :: rest => exact ⟨_, step_reset hi⟩

/-- Settles O7, by the cases of the operation and of the presented stimulus. -/
theorem everyOperationAnswers : Obligations.EveryOperationAnswers :=
  ⟨exec_answers, step_answers⟩

end Sys2Proof.Machine
end

section
/-! PROOFS. The invariants of R24 (spec 10): what they say in each of the three states of the assembler, that the sum type
and the registers say the same, and that reset and every step keep them. -/

namespace Sys2Proof.Machine

/-- `len` does not wrap for a buffer that fits its seven bits (R22). -/
theorem State.len_toNat {s : State} (h : s.asm.count < 128) : s.len.toNat = s.asm.count := by
  rw [State.len, BitVec.toNat_ofNat, Nat.mod_eq_of_lt h]

/-- The end-marker test in the words of R24 (e): the cells at `len - 2` and `len - 1`. -/
theorem endsWithEom_iff (buf : List Byte) :
    endsWithEom buf = true ↔
      2 ≤ buf.length ∧ buf[buf.length - 2]? = some 0x0D ∧ buf[buf.length - 1]? = some 0x0A := by
  obtain rfl | ⟨bs, c, rfl⟩ := List.eq_nil_or_concat buf
  · simp [endsWithEom]
  · obtain rfl | ⟨front, b, rfl⟩ := List.eq_nil_or_concat bs
    · simp [endsWithEom]
    · rw [List.concat_eq_append, List.concat_eq_append, endsWithEom_snoc]
      simp

theorem State.inv_of_empty {s : State} (h : s.asm = .empty) : s.Inv := by
  rw [State.Inv, h]
  trivial

theorem State.inv_of_corrupt {s : State} (h : s.asm = .corrupt) : s.Inv := by
  rw [State.Inv, h]
  trivial

theorem State.inv_iff_bufferInv {s : State} {bytes : List Byte} (h : s.asm = .accumulating bytes) :
    s.Inv ↔ BufferInv bytes := by
  rw [State.Inv, h, Assembler.Inv]

/-- The invariants speak of the assembler alone. -/
theorem State.inv_congr {s t : State} (h : t.asm = s.asm) : t.Inv ↔ s.Inv := by
  rw [State.Inv, State.Inv, h]

/-- Outside `Accumulating` no byte is held, and only the clauses on `st` and `len` are left of R24. -/
theorem registerInv_of_empty {s : State} (h : s.asm = .empty) : RegisterInv s := by
  constructor <;> simp [State.st, State.len, h]

theorem registerInv_of_corrupt {s : State} (h : s.asm = .corrupt) : RegisterInv s := by
  constructor <;> simp [State.st, State.len, h]

theorem registerInv_of_bufferInv {s : State} {bytes : List Byte} (h : s.asm = .accumulating bytes)
    (hb : BufferInv bytes) : RegisterInv s := by
  obtain ⟨hpos, hbound, hprefix, hopen⟩ := hb
  rw [Config.maxComplete_eq] at hbound
  rw [prefixMatches_iff, agreesWithPrefix_iff] at hprefix
  rw [← Bool.not_eq_true, endsWithEom_iff] at hopen
  have hst : s.st = 0b01 := by rw [State.st, h, Assembler.st_accumulating]
  have hcount : s.asm.count = bytes.length := by rw [h, Assembler.count_accumulating]
  have hlen : s.len.toNat = bytes.length := by rw [State.len_toNat (by omega), hcount]
  have hcell : ∀ i, s.readCell i = bytes[i]? := fun i => by rw [State.readCell_eq, h, Assembler.bytes_accumulating]
  refine
    { emptyView := by simp [hst, h]
      accumulatingView := ⟨by simp [hst, h], fun bytes' h' => ?_⟩
      corruptView := by simp [hst, h]
      prefixView := fun _ i hi => by rw [hcell, hprefix i (hlen ▸ hi)]
      openView := fun _ h2 hpair => ?_
      lenView := by omega }
  · obtain rfl : bytes = bytes' := Assembler.accumulating.inj (h.symm.trans h')
    exact ⟨by omega, by omega, hlen.symm, hcell⟩
  · rw [hlen] at h2 hpair
    rw [hcell, hcell] at hpair
    exact hopen ⟨h2, hpair⟩

theorem bufferInv_of_registerInv {s : State} {bytes : List Byte} (h : s.asm = .accumulating bytes)
    (hr : RegisterInv s) : BufferInv bytes := by
  have hst : s.st = 0b01 := hr.accumulatingView.1.mpr ⟨bytes, h⟩
  obtain ⟨hpos, hbound, hlen, hcell⟩ := hr.accumulatingView.2 bytes h
  refine
    { nonempty := by omega
      bounded := by rw [Config.maxComplete_eq]; omega
      startsRight := ?_
      stillOpen := ?_ }
  · rw [prefixMatches_iff, agreesWithPrefix_iff]
    intro i hi
    rw [← hcell, hr.prefixView hst i (hlen ▸ hi)]
  · rw [← Bool.not_eq_true, endsWithEom_iff, ← hcell, ← hcell, hlen]
    rintro ⟨h2, hpair⟩
    exact hr.openView hst h2 hpair

/-- Settles O32, state by state of the assembler. -/
theorem invariantMatchesRegisterView : Obligations.InvariantMatchesRegisterView := by
  intro s
  cases h : s.asm with
  | empty => exact iff_of_true (State.inv_of_empty h) (registerInv_of_empty h)
  | accumulating bytes =>
    rw [State.inv_iff_bufferInv h]
    exact ⟨registerInv_of_bufferInv h, bufferInv_of_registerInv h⟩
  | corrupt => exact iff_of_true (State.inv_of_corrupt h) (registerInv_of_corrupt h)

/-- The append arm ends in a good state whatever the buffer was: the tests that a byte passes to be kept (R99 to R102) are
the clauses of R24. -/
theorem afterAppend_inv (s : State) (bs : List Byte) (c : Byte) : (s.afterAppend (bs ++ [c])).Inv := by
  obtain ⟨-, h⟩ | ⟨-, -, h⟩ | ⟨-, -, -, h⟩ | ⟨hlen, hprefix, hopen, h⟩ := afterAppend_cases s (bs ++ [c])
  · exact State.inv_of_corrupt (by rw [h, State.corruptWith_asm])
  · exact State.inv_of_corrupt (by rw [h, State.corruptWith_asm])
  · exact State.inv_of_empty (by rw [h, complete_asm])
  · rw [State.inv_iff_bufferInv (by rw [h, State.endWith_asm])]
    exact
      { nonempty := by simp
        bounded := by rw [Config.maxComplete_eq]; omega
        startsRight := (prefixMatches_iff _).mpr hprefix
        stillOpen := hopen }

/-- In `Corrupt` a `FEED` stays there or resynchronises (R96, R97). -/
theorem whileCorrupt_asm {s : State} (c : Byte) (h : s.asm = .corrupt) :
    (s.whileCorrupt c).asm = .empty ∨ (s.whileCorrupt c).asm = .corrupt := by
  by_cases hc : c = 0x0A
  · subst hc
    exact .inl (by rw [whileCorrupt_lineEnd, State.toEmpty_asm])
  · exact .inr (by rw [whileCorrupt_other hc, State.keep_asm, h])

/-- Every operation keeps the invariants. -/
theorem exec_keeps_inv {i : Instr} {s t : State} (hi : s.Inv) (h : exec i s = .next t) : t.Inv := by
  obtain ⟨-, rfl⟩ | ⟨-, rfl⟩ | ⟨-, rfl⟩ | ⟨acc, data, -, rfl⟩ | ⟨acc, -, rfl⟩ | ⟨c, -, hc, rfl⟩ | ⟨c, bs, -, -, rfl⟩ :=
    exec_cases h
  · exact (State.inv_congr (State.keep_asm s _)).mpr hi
  · exact State.inv_of_empty (State.toEmpty_asm s _)
  · exact (State.inv_congr (State.keep_asm s _)).mpr hi
  · exact hi
  · exact hi
  · exact (whileCorrupt_asm c hc).elim State.inv_of_empty State.inv_of_corrupt
  · exact afterAppend_inv s bs c

/-- Every step keeps the invariants, a step without a word and the reset event among them. -/
theorem step_keeps_inv {s t : State} (hi : s.Inv) (h : step s = .next t) : t.Inv := by
  obtain ⟨-, rfl⟩ | ⟨w, rest, -, he⟩ | ⟨rest, -, rfl⟩ := step_cases h
  · exact hi
  · exact exec_keeps_inv (s := { s with input := rest }) hi he
  · exact State.inv_of_empty (State.resetEvent_asm _)

/-- Settles O31: the register clauses are the invariant of the sum type, which every step keeps. -/
theorem stepKeepsRegisterInvariant : Obligations.StepKeepsRegisterInvariant := by
  refine ⟨registerInv_of_empty rfl, fun s t hr h => ?_⟩
  have hi : s.Inv := (invariantMatchesRegisterView s).mpr hr
  exact (invariantMatchesRegisterView t).mp (step_keeps_inv hi h)

/-- Settles O3: reset leaves the assembler `Empty`, where the invariants hold and there is no byte to be of a pair. -/
theorem invariantHoldsAtReset : Obligations.InvariantHoldsAtReset := by
  refine ⟨State.inv_of_empty rfl, registerInv_of_empty rfl, fun i hpair => ?_⟩
  simp [State.reset, eomAt] at hpair

/-- Settles O2: each view of the reset state, read off its empty assembler. -/
theorem resetState : Obligations.ResetState :=
  ⟨rfl, rfl, rfl, fun a => State.readCell_eq State.reset a, rfl⟩

end Sys2Proof.Machine
end

section
/-! PROOFS. What an operation reads and writes (spec 10, R23 to R36; spec 40, R87): a command ends in a way that the assembler
and the parameters decide, a CRC operation drives its own wires, and a `FEED` that keeps its byte writes one cell. -/

namespace Sys2Proof.Machine

/-- From `s` and from `s'` a command ends in the same assembler state with the same values on the result port, and leaves
the other fields of each state alone. -/
def EndAlike (s s' t t' : State) : Prop :=
  ∃ a cause out, t = s.endWith a cause out ∧ t' = s'.endWith a cause out

/-- The verdict on a frame, and with it the end of a completion, reads the parameters alone (R113 to R122). -/
theorem complete_endAlike {s s' : State} (hp : s.params = s'.params) (frame : List Byte) :
    EndAlike s s' (s.complete frame) (s'.complete frame) := by
  unfold State.complete
  rw [← hp]
  cases judge s.params frame with
  | runt => exact ⟨_, _, _, rfl, rfl⟩
  | badChecksum => exact ⟨_, _, _, rfl, rfl⟩
  | unknownType => exact ⟨_, _, _, rfl, rfl⟩
  | good => exact ⟨_, _, _, rfl, rfl⟩

/-- The tests of the append arm read the bytes alone (R99 to R103). -/
theorem afterAppend_endAlike {s s' : State} (hp : s.params = s'.params) (buf : List Byte) :
    EndAlike s s' (s.afterAppend buf) (s'.afterAppend buf) := by
  obtain ⟨hlen, h⟩ | ⟨hlen, hprefix, h⟩ | ⟨hlen, hprefix, heom, h⟩ | ⟨hlen, hprefix, heom, h⟩ := afterAppend_cases s buf
  · exact ⟨_, _, _, h, afterAppend_oversize hlen⟩
  · exact ⟨_, _, _, h, afterAppend_badPrefix hlen hprefix⟩
  · rw [h, afterAppend_completes hlen hprefix heom]
    exact complete_endAlike hp buf
  · exact ⟨_, _, _, h, afterAppend_continues hlen hprefix heom⟩

theorem keep_endAlike {s s' : State} (ha : s.asm = s'.asm) (cause : Cause) :
    EndAlike s s' (s.keep cause) (s'.keep cause) :=
  ⟨s.asm, cause, none, rfl, by rw [State.keep, ha]⟩

/-- The byte fed while `Corrupt` decides alone (R96, R97). -/
theorem whileCorrupt_endAlike {s s' : State} (ha : s.asm = s'.asm) (c : Byte) :
    EndAlike s s' (s.whileCorrupt c) (s'.whileCorrupt c) := by
  by_cases hc : c = 0x0A
  · subst hc
    rw [whileCorrupt_lineEnd, whileCorrupt_lineEnd]
    exact ⟨_, _, _, rfl, rfl⟩
  · rw [whileCorrupt_other hc, whileCorrupt_other hc]
    exact keep_endAlike ha _

/-- How a command ends depends on the assembler and the parameters alone (R32, R65). -/
theorem exec_endAlike {i : Instr} {s s' : State} (hi : i.isCommand = true) (ha : s.asm = s'.asm)
    (hp : s.params = s'.params) :
    ∃ t t', exec i s = .next t ∧ exec i s' = .next t' ∧ EndAlike s s' t t' := by
  cases i with
  | nop => exact ⟨_, _, rfl, rfl, keep_endAlike ha _⟩
  | clear => exact ⟨_, _, rfl, rfl, _, _, _, rfl, rfl⟩
  | reserved => exact ⟨_, _, rfl, rfl, keep_endAlike ha _⟩
  | feed c =>
    obtain hc | ⟨bs, hbs⟩ := corrupt_or_appends s.asm
    · exact ⟨_, _, execFeed_corrupt c hc, execFeed_corrupt c (ha ▸ hc), whileCorrupt_endAlike ha c⟩
    · exact ⟨_, _, execFeed_append c hbs, execFeed_append c (ha ▸ hbs), afterAppend_endAlike hp _⟩
  | crcUpd acc data => cases hi
  | crcFin acc => cases hi

/-- Settles O43: a command ends alike in both states, and a CRC operation reads the parameters. -/
theorem outputsNeverFeedBack : Obligations.OutputsNeverFeedBack := by
  intro i s s' ha hp
  cases hi : i.isCommand with
  | true =>
    obtain ⟨_, _, h, h', a, cause, out, rfl, rfl⟩ := exec_endAlike hi ha hp
    refine ⟨_, _, h, h', rfl, hp, fun _ => rfl, ?_, ?_⟩
    · rintro acc data rfl
      cases hi
    · rintro acc rfl
      cases hi
  | false =>
    cases i with
    | crcUpd acc data =>
      refine ⟨_, _, execCrcUpd_eq acc data s, execCrcUpd_eq acc data s', ha, hp, nofun, fun _ _ _ => ?_, nofun⟩
      rw [hp]
    | crcFin acc =>
      refine ⟨_, _, execCrcFin_eq acc s, execCrcFin_eq acc s', ha, hp, nofun, nofun, fun _ _ => ?_⟩
      rw [hp]
    | nop => cases hi
    | feed c => cases hi
    | clear => cases hi
    | reserved => cases hi

/-- Settles O45: a command ends through `endWith`, which writes none of these fields. -/
theorem commandFrame : Obligations.CommandFrame := by
  intro i s t hi h
  obtain ⟨u, _, hu, -, a, cause, out, rfl, -⟩ := exec_endAlike hi (rfl : s.asm = s.asm) rfl
  obtain rfl := Host.Outcome.next.inj (hu.symm.trans h)
  exact ⟨State.endWith_params .., State.endWith_input .., State.endWith_crcUpdOut .., State.endWith_crcFinOut ..⟩

/-- Settles O46: the value is that of `crcUpdate` or `crcFinish`, whose arguments are the operand and the parameters. -/
theorem crcPortFrame : Obligations.CrcPortFrame := by
  refine ⟨fun acc data s => ⟨_, execCrcUpd_eq acc data s, fun s' hp => ?_⟩,
    fun acc s => ⟨_, execCrcFin_eq acc s, fun s' hp => ?_⟩⟩
  · rw [← hp]
    exact execCrcUpd_eq acc data s'
  · rw [← hp]
    exact execCrcFin_eq acc s'

/-- A `FEED` keeps its byte behind the bytes held, or leaves the assembler without any (R95 to R102). -/
theorem feed_asm_cases {c : Byte} {s t : State} (h : exec (.feed c) s = .next t) :
    t.asm = .accumulating (s.asm.bytes ++ [c]) ∨ t.asm = .empty ∨ t.asm = .corrupt := by
  obtain hc | ⟨bs, hbs⟩ := corrupt_or_appends s.asm
  · obtain rfl := Host.Outcome.next.inj ((execFeed_corrupt c hc).symm.trans h)
    exact .inr (whileCorrupt_asm c hc)
  · obtain rfl := Host.Outcome.next.inj ((execFeed_append c hbs).symm.trans h)
    rw [appendsTo_bytes hbs]
    obtain ⟨-, h⟩ | ⟨-, -, h⟩ | ⟨-, -, -, h⟩ | ⟨-, -, -, h⟩ := afterAppend_cases s (bs ++ [c])
    · exact .inr (.inr (by rw [h, State.corruptWith_asm]))
    · exact .inr (.inr (by rw [h, State.corruptWith_asm]))
    · exact .inr (.inl (by rw [h, complete_asm]))
    · exact .inl (by rw [h, State.endWith_asm])

/-- An operation that neither feeds nor clears keeps the assembler (R87, R94, R107). -/
theorem exec_asm_of_not_feed_clear {i : Instr} {s t : State} (h : exec i s = .next t) (hf : ∀ c, i ≠ .feed c)
    (hc : i ≠ .clear) : t.asm = s.asm := by
  cases i with
  | nop => exact Host.Outcome.next.inj h ▸ State.keep_asm s _
  | reserved => exact Host.Outcome.next.inj h ▸ State.keep_asm s _
  | crcUpd acc data => exact Host.Outcome.next.inj h ▸ rfl
  | crcFin acc => exact Host.Outcome.next.inj h ▸ rfl
  | feed c => exact absurd rfl (hf c)
  | clear => exact absurd rfl hc

/-- The view of a buffer with one more byte is the view before with the cell at index `len` written (R98). -/
theorem buf_of_appended {s t : State} {c : Byte} (h : t.asm = .accumulating (s.asm.bytes ++ [c])) :
    t.buf = s.buf.write s.asm.count c := by
  rw [State.buf, h, Assembler.bytes_accumulating, Memory.layout_append, Nat.zero_add]
  rfl

/-- A `FEED` that ends in `Accumulating` is one write to the buffer. -/
theorem feed_writes_cell {s t : State} {c : Byte} {bytes : List Byte} (h : exec (.feed c) s = .next t)
    (ht : t.asm = .accumulating bytes) : t.buf = s.buf.write s.asm.count c := by
  obtain ha | ha | ha := feed_asm_cases h
  · exact buf_of_appended ha
  · cases ha.symm.trans ht
  · cases ha.symm.trans ht

/-- A `FEED` that ends elsewhere leaves no cell defined. -/
theorem feed_undefines_cells {s t : State} {c : Byte} (h : exec (.feed c) s = .next t)
    (ht : ¬ ∃ bytes, t.asm = .accumulating bytes) (a : Nat) : t.readCell a = none := by
  obtain ha | ha | ha := feed_asm_cases h
  · exact absurd ⟨_, ha⟩ ht
  · simp [ha]
  · simp [ha]

/-- Settles O47: the write of a kept byte read back through the laws of the memory; every other ending by the assembler
state it leaves. -/
theorem bufferFrame : Obligations.BufferFrame := by
  refine ⟨State.buf_wf, fun s t c bytes h ht => ?_, fun s t c h ht => feed_undefines_cells h ht, fun s t h => ?_,
    fun s t i h hf hc a => ?_⟩
  · have hbuf : t.buf = s.buf.write s.asm.count c := feed_writes_cell h ht
    refine ⟨hbuf, ?_, fun a ha => ?_⟩
    · rw [State.readCell, hbuf, Memory.read_write_same]
    · rw [State.readCell, hbuf, Memory.read_write_other _ _ ha, State.readCell]
  · obtain rfl := Host.Outcome.next.inj h
    show ∀ a, (s.toEmpty .cleared).readCell a = none
    simp
  · rw [State.readCell_eq, State.readCell_eq, exec_asm_of_not_feed_clear h hf hc]

end Sys2Proof.Machine
end

section
/-! PROOFS. Steps and runs (spec 20, R46; spec 70, R162): no operation reads or writes the pending stimuli, so the steps on
presented words, which differ from the run of their operations in those stimuli only, end where the run ends. -/

namespace Sys2Proof.Machine

/-- An operation ends the same whatever the host has yet to present, and leaves that as it is (R29, R32). -/
theorem exec_withPending {i : Instr} {s t : State} (pending : List Stimulus) (h : exec i s = .next t) :
    exec i { s with input := pending } = .next { t with input := pending } := by
  cases hi : i.isCommand with
  | true =>
    obtain ⟨_, _, hs, hs', a, cause, out, rfl, rfl⟩ := exec_endAlike (s := s) (s' := { s with input := pending }) hi rfl rfl
    obtain rfl := Host.Outcome.next.inj (hs.symm.trans h)
    exact hs'
  | false =>
    cases i with
    | crcUpd acc data => exact Host.Outcome.next.inj h ▸ execCrcUpd_eq acc data { s with input := pending }
    | crcFin acc => exact Host.Outcome.next.inj h ▸ execCrcFin_eq acc { s with input := pending }
    | nop => cases hi
    | feed c => cases hi
    | clear => cases hi
    | reserved => cases hi

/-- One step, then the others. -/
theorem coreRun_succ {M : Host.Core} {s t : M.State} (k : Nat) (h : M.step s = .next t) :
    M.run (k + 1) s = M.run k t := by
  rw [Host.Core.run, h]

/-- Settles O53, by induction on the presented words: the first step and the first operation of the run end in states that
differ in the pending stimuli only. -/
theorem runFollowsSteps : Obligations.RunFollowsSteps := by
  intro ws rest s hs
  induction ws generalizing s with
  | nil =>
    obtain rfl : s.input = rest := hs
    exact ⟨[], s, rfl, rfl⟩
  | cons w ws ih =>
    obtain ⟨t, ht⟩ := exec_answers (decode w) s
    have hstep : step s = .next { t with input := ws.map .word ++ rest } := by
      rw [step_word hs]
      exact exec_withPending _ ht
    obtain ⟨rs, u, hrun, hcore⟩ := ih { t with input := ws.map .word ++ rest } rfl
    refine ⟨reportsOf (decode w) { t with input := rest } ++ rs, u, ?_, ?_⟩
    · rw [List.map_cons, run_cons _ (exec_withPending rest ht), hrun, Option.map_some]
    · exact (coreRun_succ (M := Sys2Proof.core) ws.length hstep).trans hcore

end Sys2Proof.Machine
end

section
/-! PROOFS. The opcode map of the command port (spec 30, R62, R63, R70): its mask leaves the `op` field of a word, and its
rows are the values of that field. -/

namespace Sys2Proof

/-- A command word is put together from its two fields (R62). -/
theorem cmdWord_cmdOp_cmdData (w : BitVec 10) : cmdWord (cmdOp w) (cmdData w) = w :=
  (BitVec.extractLsb'_append_extractLsb'_eq_extractLsb' rfl).trans BitVec.extractLsb'_eq_self

/-- The mask of the opcode map keeps the `op` field and drops the `data` field (R62, R63). -/
theorem and_opMask (w : BitVec 10) : w &&& 0x300 = cmdWord (cmdOp w) 0 := by
  calc
    w &&& 0x300 = cmdWord (cmdOp w) (cmdData w) &&& cmdWord (BitVec.allOnes 2) 0 := by
      rw [cmdWord_cmdOp_cmdData]
      rfl
    _ = cmdWord (cmdOp w &&& BitVec.allOnes 2) (cmdData w &&& 0) := BitVec.and_append
    _ = cmdWord (cmdOp w) 0 := by rw [BitVec.and_allOnes, BitVec.ofNat_eq_ofNat, BitVec.and_zero]

/-- Two command words are told apart by the map only if their `op` fields differ. -/
theorem and_opMask_eq_iff (w : BitVec 10) (op : BitVec 2) : w &&& 0x300 = cmdWord op 0 ↔ cmdOp w = op := by
  rw [and_opMask]
  refine ⟨fun h => ?_, fun h => by rw [h]⟩
  simpa using congrArg cmdOp h

/-- The rows of the map are the four values of the `op` field, so a word selects one of them (R63). -/
theorem length_filter_selects (w : BitVec 10) : (opcodeMap.filter (selects w)).length = 1 := by
  have h : ∀ op : BitVec 2, (opcodeMap.filter (selects (cmdWord op 0))).length = 1 := by decide
  have hw : ∀ r ∈ opcodeMap, selects w r = selects (cmdWord (cmdOp w) 0) r := by
    simp only [opcodeMap, List.forall_mem_cons, selects, and_opMask, cmdOp_cmdWord, true_and]
    exact fun _ hr => nomatch hr
  rw [List.filter_congr hw]
  exact h _

end Sys2Proof

namespace Sys2Proof.Machine

/-- Settles O9: the masked value is the `op` field, which the decoder reads. -/
theorem commandWordSelectsOneRow : Obligations.CommandWordSelectsOneRow :=
  ⟨rfl, rfl, fun w => ⟨length_filter_selects w,
    fun h => decodeCommand_nop ((and_opMask_eq_iff w 0b00).mp h),
    fun h => decodeCommand_feed ((and_opMask_eq_iff w 0b01).mp h),
    fun h => decodeCommand_clear ((and_opMask_eq_iff w 0b10).mp h),
    fun h => decodeCommand_reserved ((and_opMask_eq_iff w 0b11).mp h)⟩⟩

end Sys2Proof.Machine
end

section
/-! PROOFS. The words on the output ports (spec 10, R31; spec 30, R64, R66): the status word and its legal values, and the
fields of the flattened record port. -/

namespace Sys2Proof.Machine

/-! ### The status word -/

theorem status_extract_st (s : State) : s.status.extractLsb' 7 2 = s.st := extractLsb'_append_high s.st s.len

theorem status_extract_len (s : State) : s.status.extractLsb' 0 7 = s.len := extractLsb'_append_low s.st s.len

theorem status_toNat (s : State) : s.status.toNat = 128 * s.st.toNat + s.len.toNat := by
  rw [State.status, BitVec.toNat_append, ← Nat.shiftLeft_add_eq_or_of_lt s.len.isLt, Nat.shiftLeft_eq]
  omega

/-- Settles O34, state by state of the assembler; R24 bounds `len` in `Accumulating`. -/
theorem statusWordLegal : Obligations.StatusWordLegal := by
  refine ⟨rfl, fun s hi => ⟨status_extract_st s, status_extract_len s, ?_⟩⟩
  cases h : s.asm with
  | empty => exact .inl ⟨rfl, by simp [State.status, State.st, State.len, h]⟩
  | accumulating bytes =>
    obtain ⟨hpos, hbound, -, -⟩ := (State.inv_iff_bufferInv h).mp hi
    have hcount : s.asm.count = bytes.length := by rw [h, Assembler.count_accumulating]
    rw [Config.maxComplete_eq] at hbound
    have hstatus : s.status.toNat = 128 + bytes.length := by
      rw [status_toNat, State.len_toNat (by omega), hcount, State.st, h, Assembler.st_accumulating]
      rfl
    exact .inr (.inl ⟨⟨bytes, rfl⟩, by omega, by omega⟩)
  | corrupt => exact .inr (.inr ⟨rfl, by simp [State.status, State.st, State.len, h]⟩)

/-! ### The flattened record port -/

theorem flattenOut_getLsbD (filler : BitVec 881) (out : Option Record) {i : Nat} (h : i < 881) :
    (flattenOut filler out).getLsbD i = outBit filler out i := by
  rw [flattenOut, BitVec.getLsbD_ofFnLE]
  simp [Config.outBits, h]

/-- A field of the record port is a value whose bits are those of `outBit`. -/
theorem extractLsb'_flattenOut {filler : BitVec 881} {out : Option Record} {start n : Nat} {v : BitVec n}
    (hfit : start + n ≤ 881) (hbits : ∀ j < n, outBit filler out (start + j) = v.getLsbD j) :
    (flattenOut filler out).extractLsb' start n = v := by
  refine BitVec.eq_of_getLsbD_eq fun j hj => ?_
  rw [BitVec.getLsbD_extractLsb', flattenOut_getLsbD filler out (by omega), hbits j hj]
  simp [hj]

/-! The bits of a record, by the field they lie in: the tests of `outBit` before that field fail and its own succeeds. -/

section
variable (filler : BitVec 881) (r : Record) {j : Nat}

theorem outBit_typeId (h : j < 16) : outBit filler (some r) (1 + j) = r.typeId.getLsbD j := by
  simp (disch := omega) only [outBit, if_pos, if_neg, Nat.add_sub_cancel_left]

theorem outBit_declaredLen (h : j < 16) : outBit filler (some r) (17 + j) = r.declaredLen.getLsbD j := by
  simp (disch := omega) only [outBit, if_pos, if_neg, Nat.add_sub_cancel_left]

theorem outBit_payloadLen (h : j < 7) : outBit filler (some r) (33 + j) = r.payloadLen.getLsbD j := by
  simp (disch := omega) only [outBit, if_pos, if_neg, Nat.add_sub_cancel_left]

theorem outBit_payload {k : Nat} {b : Byte} (hk : r.payload[k]? = some b) (h : j < 8) :
    outBit filler (some r) (41 + 8 * k + j) = b.getLsbD j := by
  have hdiv : (41 + 8 * k + j - 41) / 8 = k := by omega
  have hmod : (41 + 8 * k + j - 41) % 8 = j := by omega
  simp (disch := omega) only [outBit, if_neg, hdiv, hmod, hk]

end

/-- Settles O39: each field holds the bits that `outBit` puts there, and none of those is the filler's. -/
theorem outWordLayout : Obligations.OutWordLayout := by
  refine fun filler => ⟨flattenOut_getLsbD filler none (by omega), fun r => ⟨flattenOut_getLsbD filler (some r) (by omega),
    ?_, ?_, ?_, flattenOut_getLsbD filler (some r) (by omega), fun k b hk hb => ?_⟩⟩
  · exact extractLsb'_flattenOut (by omega) fun j hj => outBit_typeId filler r hj
  · exact extractLsb'_flattenOut (by omega) fun j hj => outBit_declaredLen filler r hj
  · exact extractLsb'_flattenOut (by omega) fun j hj => outBit_payloadLen filler r hj
  · exact extractLsb'_flattenOut (by omega) fun j hj => outBit_payload filler r hb hj

end Sys2Proof.Machine
end

section
/-! PROOFS. No step makes an end-marker pair in the buffer (spec 30, R73): a byte that would is the last of a frame (R101). -/

namespace Sys2Proof.Machine

theorem holdsNoEom_empty : Assembler.empty.holdsNoEom := by
  simp [Assembler.holdsNoEom, eomAt]

theorem holdsNoEom_corrupt : Assembler.corrupt.holdsNoEom := by
  simp [Assembler.holdsNoEom, eomAt]

/-- A new pair can only be the last two bytes, which the end-marker test looks at (R73, R101). -/
theorem holdsNoEom_snoc {bs : List Byte} {c : Byte} (hbs : ∀ i, ¬ eomAt bs i) (hopen : endsWithEom (bs ++ [c]) = false) :
    (Assembler.accumulating (bs ++ [c])).holdsNoEom := by
  rintro i ⟨h0, h1⟩
  rw [Assembler.bytes_accumulating] at h0 h1
  by_cases hi : i + 1 < bs.length
  · rw [List.getElem?_append_left (by omega)] at h0
    rw [List.getElem?_append_left hi] at h1
    exact hbs i ⟨h0, h1⟩
  · have hlen : i + 1 < (bs ++ [c]).length := (List.getElem?_eq_some_iff.mp h1).1
    have hlast : (bs ++ [c]).length = i + 2 := by
      rw [List.length_append, List.length_singleton] at hlen ⊢
      omega
    rw [← Bool.not_eq_true, endsWithEom_iff, hlast] at hopen
    exact hopen ⟨by omega, h0, h1⟩

theorem afterAppend_holdsNoEom (s : State) {bs : List Byte} (c : Byte) (hbs : ∀ i, ¬ eomAt bs i) :
    (s.afterAppend (bs ++ [c])).asm.holdsNoEom := by
  obtain ⟨-, h⟩ | ⟨-, -, h⟩ | ⟨-, -, -, h⟩ | ⟨-, -, hopen, h⟩ := afterAppend_cases s (bs ++ [c])
  · rw [h, State.corruptWith_asm]
    exact holdsNoEom_corrupt
  · rw [h, State.corruptWith_asm]
    exact holdsNoEom_corrupt
  · rw [h, complete_asm]
    exact holdsNoEom_empty
  · rw [h, State.endWith_asm]
    exact holdsNoEom_snoc hbs hopen

theorem exec_keeps_holdsNoEom {i : Instr} {s t : State} (hs : s.asm.holdsNoEom) (h : exec i s = .next t) :
    t.asm.holdsNoEom := by
  obtain ⟨-, rfl⟩ | ⟨-, rfl⟩ | ⟨-, rfl⟩ | ⟨acc, data, -, rfl⟩ | ⟨acc, -, rfl⟩ | ⟨c, -, hc, rfl⟩ | ⟨c, bs, -, ha, rfl⟩ :=
    exec_cases h
  · exact hs
  · exact holdsNoEom_empty
  · exact hs
  · exact hs
  · exact hs
  · obtain h | h := whileCorrupt_asm c hc
    · exact h ▸ holdsNoEom_empty
    · exact h ▸ holdsNoEom_corrupt
  · exact afterAppend_holdsNoEom s c (appendsTo_bytes ha ▸ hs)

/-- Settles O33, by the cases of the step. -/
theorem bufferNeverHoldsEndMarker : Obligations.BufferNeverHoldsEndMarker := by
  intro s t hs h
  obtain ⟨-, rfl⟩ | ⟨w, rest, -, he⟩ | ⟨rest, -, rfl⟩ := step_cases h
  · exact hs
  · exact exec_keeps_holdsNoEom (s := { s with input := rest }) hs he
  · exact holdsNoEom_empty

end Sys2Proof.Machine
end

section
/-! PROOFS. What a command reports (spec 30, R64, R65; spec 42, R113 to R122): the cause with the state before and after it, and
the record. -/

namespace Sys2Proof.Machine

/-- The runt test alone decides the runt verdict (R114). -/
theorem judge_eq_runt_iff (p : Params) (frame : List Byte) : judge p frame = .runt ↔ frame.length < 16 := by
  refine ⟨fun h => ?_, judge_runt⟩
  by_contra hlong
  rw [judge_long (by omega)] at h
  split at h
  · cases h
  · split at h <;> cases h

/-- A verdict other than runt is on a frame of at least 16 bytes. -/
theorem le_length_of_judge {p : Params} {frame : List Byte} {v : Verdict} (h : judge p frame = v) (hv : v ≠ .runt) :
    16 ≤ frame.length := by
  have hrunt := mt (judge_eq_runt_iff p frame).mpr (h ▸ hv)
  omega

/-- An appended buffer that passes the three tests completes a frame, and its last byte is `0A` (R99 to R101). -/
theorem completesWith_of_appendsTo {s : State} {bs : List Byte} {c : Byte} (ha : s.asm.appendsTo bs)
    (hlen : (bs ++ [c]).length < 122) (hp : agreesWithPrefix (bs ++ [c])) (heom : endsWithEom (bs ++ [c]) = true) :
    c = 0x0A ∧ s.completesWith (bs ++ [c]) := by
  obtain ⟨hlast, rfl⟩ := (endsWithEom_snoc bs c).mp heom
  exact ⟨rfl, bs, ha, rfl, hlast, hlen, hp⟩

/-- What R65 says of a command `i` that takes `s` to `t` with the given cause: the operation, the condition on `s`, and the
assembler of `t`. -/
def CauseMeans (i : Instr) (s t : State) : Cause → Prop
  | .idle => i = .nop ∧ t.asm = s.asm
  | .accum => ∃ c bs, i = .feed c ∧ s.asm.appendsTo bs ∧ t.asm = .accumulating (bs ++ [c])
  | .swallow => (∃ c, i = .feed c ∧ c ≠ 0x0A) ∧ s.asm = .corrupt ∧ t.asm = .corrupt
  | .resync => i = .feed 0x0A ∧ s.asm = .corrupt ∧ t.asm = .empty
  | .corruptOversize => (∃ c bs, i = .feed c ∧ s.asm.appendsTo bs ∧ 122 ≤ bs.length + 1) ∧ t.asm = .corrupt
  | .corruptPrefix => (∃ c bs, i = .feed c ∧ s.asm.appendsTo bs ∧ ¬ agreesWithPrefix (bs ++ [c])) ∧ t.asm = .corrupt
  | .dropRunt => (∃ frame, i = .feed 0x0A ∧ s.completesWith frame ∧ frame.length < 16) ∧ t.asm = .empty
  | .frameOk | .dropCrc | .dropUnknown =>
    (∃ frame, i = .feed 0x0A ∧ s.completesWith frame ∧ 16 ≤ frame.length) ∧ t.asm = .empty
  | .cleared => i = .clear ∧ t.asm = .empty
  | .illegalCmd => i = .reserved ∧ t.asm = s.asm

/-- The command drives a report: its cause tells what happened, and it carries a record with `FRAME_OK` only (R64, R65). -/
def ReportsTruly (i : Instr) (s t : State) : Prop :=
  ∃ r, t.result = some r ∧ CauseMeans i s t r.cause ∧ (r.out.isSome = true ↔ r.cause = .frameOk)

/-- The four verdicts on a completed frame (R113 to R121). -/
theorem complete_reportsTruly {s : State} {frame : List Byte} (h : s.completesWith frame) :
    ReportsTruly (.feed 0x0A) s (s.complete frame) := by
  obtain ⟨hj, hc⟩ | ⟨hj, hc⟩ | ⟨hj, hc⟩ | ⟨hj, hc⟩ := complete_cases s frame
  · exact hc ▸ ⟨_, rfl, ⟨⟨frame, rfl, h, (judge_eq_runt_iff _ _).mp hj⟩, rfl⟩, by decide⟩
  · exact hc ▸ ⟨_, rfl, ⟨⟨frame, rfl, h, le_length_of_judge hj (by decide)⟩, rfl⟩, by decide⟩
  · exact hc ▸ ⟨_, rfl, ⟨⟨frame, rfl, h, le_length_of_judge hj (by decide)⟩, rfl⟩, by decide⟩
  · exact hc ▸ ⟨_, rfl, ⟨⟨frame, rfl, h, le_length_of_judge hj (by decide)⟩, rfl⟩, iff_of_true rfl rfl⟩

theorem afterAppend_reportsTruly {s : State} {bs : List Byte} (c : Byte) (ha : s.asm.appendsTo bs) :
    ReportsTruly (.feed c) s (s.afterAppend (bs ++ [c])) := by
  obtain ⟨hlen, h⟩ | ⟨-, hp, h⟩ | ⟨hlen, hp, heom, h⟩ | ⟨-, -, -, h⟩ := afterAppend_cases s (bs ++ [c])
  · rw [List.length_append, List.length_singleton] at hlen
    exact h ▸ ⟨_, rfl, ⟨⟨c, bs, rfl, ha, hlen⟩, rfl⟩, by decide⟩
  · exact h ▸ ⟨_, rfl, ⟨⟨c, bs, rfl, ha, hp⟩, rfl⟩, by decide⟩
  · obtain ⟨rfl, hframe⟩ := completesWith_of_appendsTo ha hlen hp heom
    exact h ▸ complete_reportsTruly hframe
  · exact h ▸ ⟨_, rfl, ⟨c, bs, rfl, ha, rfl⟩, by decide⟩

theorem whileCorrupt_reportsTruly {s : State} (c : Byte) (hs : s.asm = .corrupt) :
    ReportsTruly (.feed c) s (s.whileCorrupt c) := by
  by_cases hc : c = 0x0A
  · subst hc
    rw [whileCorrupt_lineEnd]
    exact ⟨_, rfl, ⟨rfl, hs, rfl⟩, by decide⟩
  · rw [whileCorrupt_other hc]
    exact ⟨_, rfl, ⟨⟨c, rfl, hc⟩, hs, hs⟩, by decide⟩

theorem command_reportsTruly {i : Instr} {s t : State} (hi : i.isCommand = true) (h : exec i s = .next t) :
    ReportsTruly i s t := by
  obtain ⟨rfl, rfl⟩ | ⟨rfl, rfl⟩ | ⟨rfl, rfl⟩ | ⟨_, _, rfl, -⟩ | ⟨_, rfl, -⟩ | ⟨c, rfl, hc, rfl⟩ | ⟨c, bs, rfl, ha, rfl⟩ :=
    exec_cases h
  · exact ⟨_, rfl, ⟨rfl, rfl⟩, by decide⟩
  · exact ⟨_, rfl, ⟨rfl, rfl⟩, by decide⟩
  · exact ⟨_, rfl, ⟨rfl, rfl⟩, by decide⟩
  · cases hi
  · cases hi
  · exact whileCorrupt_reportsTruly c hc
  · exact afterAppend_reportsTruly c ha

/-- Settles O36, by what each command reports. -/
theorem causeTellsStateAfter : Obligations.CauseTellsStateAfter := by
  refine ⟨rfl, fun i s t hi h => ?_⟩
  obtain ⟨⟨cause, out⟩, hr, hcause, -⟩ := command_reportsTruly hi h
  refine ⟨⟨cause, out⟩, hr, ?_⟩
  cases cause <;> exact hcause

/-- Settles O37: a record comes with `FRAME_OK`, which stands for the completing `FEED` of `0A`. -/
theorem recordOnlyWithFrameOk : Obligations.RecordOnlyWithFrameOk := by
  intro i s t hi h
  obtain ⟨r, hr, hcause, hout⟩ := command_reportsTruly hi h
  refine ⟨r, hr, hout, fun hsome => ?_⟩
  rw [hout.mp hsome] at hcause
  obtain ⟨⟨frame, hfeed, hframe, -⟩, -⟩ := hcause
  exact ⟨hfeed, frame, hframe⟩

end Sys2Proof.Machine
end

section
/-! PROOFS. The questions that `FEED` asks of its byte (spec 30, R68). -/

namespace Sys2Proof.Machine

/-- What R100 asks of an appended byte is that it be its own of `PREFIX`, while there is one (R104). -/
theorem agreesWithPrefix_snoc (bs : List Byte) (c : Byte) :
    agreesWithPrefix (bs ++ [c]) ↔ agreesWithPrefix bs ∧ (bs.length < 8 → Config.framePrefix[bs.length]? = some c) := by
  rw [agreesWithPrefix_iff, agreesWithPrefix_iff, List.length_append, List.length_singleton]
  constructor
  · refine fun h => ⟨fun i hi => ?_, fun hlen => ?_⟩
    · rw [← h i (by omega), List.getElem?_append_left (by omega)]
    · rw [← h bs.length (by omega), List.getElem?_concat_length]
  · rintro ⟨hbs, hc⟩ i hi
    by_cases hlt : i < bs.length
    · rw [List.getElem?_append_left hlt, hbs i (by omega)]
    · obtain rfl : i = bs.length := by omega
      rw [List.getElem?_concat_length, hc (by omega)]

/-- The two states agree in everything R68 speaks of: `st`, `len`, the report, and all bytes held but the last. -/
def SameButLastByte (t t' : State) : Prop :=
  t.st = t'.st ∧ t.len = t'.len ∧ t.result = t'.result ∧ t.asm.bytes.dropLast = t'.asm.bytes.dropLast

theorem SameButLastByte.refl (t : State) : SameButLastByte t t := ⟨rfl, rfl, rfl, rfl⟩

theorem accumulating_sameButLastByte (s : State) (bs : List Byte) (c c' : Byte) (cause : Cause) :
    SameButLastByte (s.endWith (.accumulating (bs ++ [c])) cause none)
      (s.endWith (.accumulating (bs ++ [c'])) cause none) := by
  refine ⟨rfl, ?_, rfl, ?_⟩
  · simp [State.len]
  · simp

/-- Away from a completion, the append arm asks for the length and `PREFIX` only. -/
theorem afterAppend_sameButLastByte (s : State) (bs : List Byte) {c c' : Byte} (hc : c ≠ 0x0A) (hc' : c' ≠ 0x0A)
    (hp : agreesWithPrefix (bs ++ [c]) ↔ agreesWithPrefix (bs ++ [c'])) :
    SameButLastByte (s.afterAppend (bs ++ [c])) (s.afterAppend (bs ++ [c'])) := by
  have hlen : (bs ++ [c']).length = (bs ++ [c]).length := by simp
  have hopen : endsWithEom (bs ++ [c']) = false := by
    rw [← Bool.not_eq_true, endsWithEom_snoc]
    exact fun h => hc' h.2
  obtain ⟨h122, h⟩ | ⟨h122, hbad, h⟩ | ⟨-, -, heom, -⟩ | ⟨h122, hok, -, h⟩ := afterAppend_cases s (bs ++ [c])
  · rw [h, afterAppend_oversize (hlen ▸ h122)]
    exact .refl _
  · rw [h, afterAppend_badPrefix (hlen ▸ h122) (hp.not.mp hbad)]
    exact .refl _
  · exact absurd ((endsWithEom_snoc bs c).mp heom).2 hc
  · rw [h, afterAppend_continues (hlen ▸ h122) (hp.mp hok) hopen]
    exact accumulating_sameButLastByte s bs c c' .accum

/-- Settles O42: two bytes that are both `0A` are one byte; two others are swallowed alike, or meet the same test. -/
theorem feedDependsOnThreeQuestions : Obligations.FeedDependsOnThreeQuestions := by
  intro s c c' ha hb
  by_cases hc : c = 0x0A
  · obtain rfl : c = c' := hc.trans (ha.mp hc).symm
    obtain ⟨t, ht⟩ := exec_answers (.feed c) s
    exact ⟨t, t, ht, ht, SameButLastByte.refl t⟩
  · have hc' : c' ≠ 0x0A := ha.not.mp hc
    obtain hs | ⟨bs, hbs⟩ := corrupt_or_appends s.asm
    · refine ⟨_, _, execFeed_corrupt c hs, execFeed_corrupt c' hs, ?_⟩
      rw [whileCorrupt_other hc, whileCorrupt_other hc']
      exact SameButLastByte.refl _
    · refine ⟨_, _, execFeed_append c hbs, execFeed_append c' hbs, afterAppend_sameButLastByte s bs hc hc' ?_⟩
      rw [agreesWithPrefix_snoc, agreesWithPrefix_snoc]
      exact and_congr_right fun _ => imp_congr_right (hb bs hbs)

end Sys2Proof.Machine
end

section
/-! PROOFS. `COMPUTE` through the CRC port (spec 30, R75; spec 40, R83). -/

namespace Sys2Proof.Machine

/-- From any register value, the operations of `COMPUTE` carry the register through the span and finish it (R75, R83). -/
theorem run_computeOps (p : Params) (bytes : List Byte) {acc : Word} {s : State} (hp : s.params = p) :
    ∃ u, run (computeOps p acc bytes) s =
      some ([], { s with crcUpdOut := u, crcFinOut := some (crcFinish p (bytes.foldl (crcUpdate p) acc)) }) := by
  induction bytes generalizing acc s with
  | nil =>
    refine ⟨s.crcUpdOut, ?_⟩
    rw [computeOps, run_cons (i := .crcFin acc) [] (execCrcFin_eq acc s), hp]
    rfl
  | cons b bs ih =>
    obtain ⟨u, hu⟩ := ih (acc := crcUpdate p acc b) (s := { s with crcUpdOut := some (crcUpdate s.params acc b) }) hp
    refine ⟨u, ?_⟩
    rw [computeOps, run_cons (i := .crcUpd acc b) _ (execCrcUpd_eq acc b s), hu]
    rfl

/-- Settles O26: the register starts from `CRC_INIT`. -/
theorem computeThroughPort : Obligations.ComputeThroughPort :=
  fun _ bytes => run_computeOps _ bytes rfl

end Sys2Proof.Machine
end

section
/-! PROOFS. The algebra of the Checksum Unit (spec 40, R81 to R89): the shift is XOR-linear and injective, and it carries the
low byte of a register into the high half unchanged, so `CRCUPD` is a table step and two `CRCUPD`s are one XOR and sixteen
shifts. -/

namespace Sys2Proof.Machine

theorem zext16_eq_append (b : Byte) : zext16 b = 0#8 ++ b := BitVec.setWidth_eq_append (show 8 ≤ 16 by decide)

/-- The byte XORed into the high half, written as a concatenation. -/
theorem zext16_shiftLeft_eq_append (b : Byte) : zext16 b <<< 8 = b ++ 0#8 := by
  rw [zext16, BitVec.shiftLeft_eq_concat_of_lt (by decide), BitVec.extractLsb'_setWidth_of_le (by decide),
    BitVec.extractLsb'_eq_self]
  rfl

/-- `CRCUPD` by what the byte is after the reflection of `CRC_REFIN` (R81). -/
theorem crcUpdate_of_crcByte {p : Params} {data b : Byte} (h : crcByte p data = b) (acc : Word) :
    crcUpdate p acc data = crcShift^[8] (acc ^^^ (b ++ 0#8)) := by
  rw [crcUpdate, h, zext16_shiftLeft_eq_append]

@[simp] theorem crcByte_zero (p : Params) : crcByte p 0 = 0 := by
  cases h : p.crcRefIn
  · exact crcByte_plain h 0
  · rw [crcByte_refIn h]; decide

@[simp] theorem crcByte_ones (p : Params) : crcByte p 0xFF = 0xFF := by
  cases h : p.crcRefIn
  · exact crcByte_plain h 0xFF
  · rw [crcByte_refIn h]; decide

theorem rev8_xor (b c : Byte) : rev8 (b ^^^ c) = rev8 b ^^^ rev8 c := by
  ext i hi
  simp [rev8, BitVec.getElem_reverse, BitVec.getMsbD_xor]

theorem rev16_xor (r q : Word) : rev16 (r ^^^ q) = rev16 r ^^^ rev16 q := by
  ext i hi
  simp [rev16, BitVec.getElem_reverse, BitVec.getMsbD_xor]

@[simp] theorem rev8_rev8 (b : Byte) : rev8 (rev8 b) = b := BitVec.reverse_reverse_eq

@[simp] theorem rev16_rev16 (r : Word) : rev16 (rev16 r) = r := BitVec.reverse_reverse_eq

/-- Reversing a register reverses its bytes and swaps them. -/
theorem rev16_append (b c : Byte) : rev16 (b ++ c) = rev8 c ++ rev8 b := BitVec.reverse_append

theorem crcByte_xor (p : Params) (b c : Byte) : crcByte p (b ^^^ c) = crcByte p b ^^^ crcByte p c := by
  cases h : p.crcRefIn
  · simp only [crcByte_plain h]
  · simp only [crcByte_refIn h, rev8_xor]

theorem crcByte_injective (p : Params) : Function.Injective (crcByte p) := by
  cases h : p.crcRefIn
  · exact fun b c hbc => by simpa only [crcByte_plain h] using hbc
  · exact fun b c hbc => by simpa only [crcByte_refIn h, rev8_rev8] using congrArg rev8 hbc

/-- Any number of shifts is linear over XOR (R85). -/
theorem iterate_crcShift_xor (n : Nat) (r q : Word) : crcShift^[n] (r ^^^ q) = crcShift^[n] r ^^^ crcShift^[n] q := by
  induction n generalizing r q with
  | zero => rfl
  | succ n ih => rw [Function.iterate_succ_apply, crcShift_xor, ih]; rfl

/-- A shift loses nothing: bit 0 of the polynomial shows whether the bit shifted out was 1 (R89). -/
theorem eq_zero_of_crcShift_eq_zero {r : Word} (h : crcShift r = 0) : r = 0 := by
  cases hr : r.getLsbD 15 with
  | true =>
    rw [crcShift_of_top hr] at h
    have h0 := congrArg (·.getLsbD 0) h
    simp [Config.crcPoly] at h0
  | false =>
    rw [crcShift_of_not_top hr] at h
    refine BitVec.eq_of_getLsbD_eq fun i hi => ?_
    obtain rfl | hlt : i = 15 ∨ i + 1 < 16 := by omega
    · simpa using hr
    · have hbit := congrArg (·.getLsbD (i + 1)) h
      simpa only [BitVec.getLsbD_shiftLeft, hlt, decide_true, Nat.not_lt.mpr (Nat.le_add_left 1 i), decide_false,
        Bool.not_false, Bool.true_and, Nat.add_sub_cancel, BitVec.ofNat_eq_ofNat, BitVec.getLsbD_zero] using hbit

theorem crcShift_injective : Function.Injective crcShift := fun r q h => by
  have hxor : crcShift (r ^^^ q) = 0 := by rw [crcShift_xor, h, BitVec.xor_self]; rfl
  exact BitVec.xor_eq_zero_iff.mp (eq_zero_of_crcShift_eq_zero hxor)

@[simp] theorem iterate_crcShift_zero (n : Nat) : crcShift^[n] 0 = 0 := Function.iterate_fixed (by decide) n

/-- While the top bits are clear, shifting is shifting left: the polynomial does not come in. -/
theorem iterate_crcShift_of_top_clear (n : Nat) {v : Word} (h : ∀ i, 16 ≤ i + n → v.getLsbD i = false) :
    crcShift^[n] v = v <<< n := by
  induction n with
  | zero => simp
  | succ n ih =>
    have htop : (v <<< n).getLsbD 15 = false := by
      rw [BitVec.getLsbD_shiftLeft, h (15 - n) (by omega), Bool.and_false]
    rw [Function.iterate_succ_apply', ih fun i hi => h i (by omega), crcShift_of_not_top htop, BitVec.shiftLeft_add]

/-- Eight shifts carry the low byte into the high half. -/
theorem iterate_crcShift_low (b : Byte) : crcShift^[8] (0#8 ++ b) = b ++ 0#8 := by
  rw [← zext16_eq_append, iterate_crcShift_of_top_clear 8, zext16_shiftLeft_eq_append]
  intro i hi
  rw [zext16, BitVec.getLsbD_setWidth, BitVec.getLsbD_of_ge b i (by omega), Bool.and_false]

theorem crcUpdate_xor (p : Params) (a a' : Word) (d d' : Byte) :
    crcUpdate p (a ^^^ a') (d ^^^ d') = crcUpdate p a d ^^^ crcUpdate p a' d' := by
  have hbytes : ((crcByte p d ^^^ crcByte p d') ++ 0#8 : Word) = (crcByte p d ++ 0#8) ^^^ (crcByte p d' ++ 0#8) := by
    rw [BitVec.xor_append, BitVec.xor_self]
  rw [crcUpdate_of_crcByte (crcByte_xor p d d'), crcUpdate_of_crcByte rfl, crcUpdate_of_crcByte rfl, hbytes,
    ← iterate_crcShift_xor]
  congr 1
  ac_rfl

theorem crcUpdate_zero (p : Params) : crcUpdate p 0 0 = 0 :=
  (crcUpdate_of_crcByte (crcByte_zero p) 0).trans (iterate_crcShift_zero 8)

/-- `CRCUPD` splits at the half of the register: the high byte meets the data byte and takes eight shifts, the low byte moves
up (R85). -/
theorem crcUpdate_split (p : Params) (acc : Word) (data : Byte) :
    crcUpdate p acc data = (acc <<< 8) ^^^ crcShift^[8] ((acc.extractLsb' 8 8 ^^^ crcByte p data) ++ 0#8) := by
  have hacc : (acc <<< 8 : Word) = crcShift^[8] (0#8 ++ acc.extractLsb' 0 8) := by
    rw [iterate_crcShift_low]
    exact BitVec.shiftLeft_eq_concat_of_lt (by decide)
  have hsplit : acc ^^^ (crcByte p data ++ 0#8) =
      (0#8 ++ acc.extractLsb' 0 8) ^^^ ((acc.extractLsb' 8 8 ^^^ crcByte p data) ++ 0#8) := by
    calc acc ^^^ (crcByte p data ++ 0#8)
        = (acc.extractLsb' 8 8 ++ acc.extractLsb' 0 8) ^^^ (crcByte p data ++ 0#8) :=
          congrArg (· ^^^ _) (BitVec.extractLsb'_append_extractLsb' (w := 8) (len := 8)).symm
      _ = _ := by simp only [BitVec.xor_append, BitVec.zero_xor, BitVec.xor_zero]
  rw [crcUpdate_of_crcByte rfl, hsplit, iterate_crcShift_xor, hacc]

/-- Two `CRCUPD`s XOR both bytes into the register at once and shift sixteen times. -/
theorem crcUpdate_crcUpdate (p : Params) (acc : Word) (b c : Byte) :
    crcUpdate p (crcUpdate p acc b) c = crcShift^[16] (acc ^^^ (crcByte p b ++ crcByte p c)) := by
  have hbytes : (crcByte p b ++ crcByte p c : Word) = (crcByte p b ++ 0#8) ^^^ (0#8 ++ crcByte p c) := by
    simp only [BitVec.xor_append, BitVec.zero_xor, BitVec.xor_zero]
  rw [crcUpdate_of_crcByte rfl, crcUpdate_of_crcByte rfl, ← iterate_crcShift_low (crcByte p c), ← iterate_crcShift_xor,
    ← Function.iterate_add_apply, hbytes, BitVec.xor_assoc]

theorem crcUpdate_left_injective (p : Params) (data : Byte) : Function.Injective (crcUpdate p · data) := fun r q h => by
  simp only [crcUpdate_of_crcByte rfl] at h
  exact (BitVec.xor_left_inj _).mp (crcShift_injective.iterate 8 h)

/-- Equal bytes keep different registers different. -/
theorem foldl_crcUpdate_injective (p : Params) (bytes : List Byte) :
    Function.Injective fun acc => bytes.foldl (crcUpdate p) acc := by
  induction bytes with
  | nil => exact fun _ _ h => h
  | cons b bs ih => exact ih.comp (crcUpdate_left_injective p b)

theorem crcRegister_append_two (p : Params) (bytes : List Byte) (b c : Byte) :
    crcRegister p (bytes ++ [b, c]) = crcShift^[16] (crcRegister p bytes ^^^ (crcByte p b ++ crcByte p c)) := by
  rw [crcRegister_append]
  exact crcUpdate_crcUpdate p _ b c

/-- The bytes that bring the register to zero are the register's own (R88). -/
theorem crcRegister_append_two_eq_zero_iff (p : Params) (bytes : List Byte) (b c : Byte) :
    crcRegister p (bytes ++ [b, c]) = 0 ↔ crcRegister p bytes = crcByte p b ++ crcByte p c := by
  rw [crcRegister_append_two, ← iterate_crcShift_zero 16, (crcShift_injective.iterate 16).eq_iff]
  exact BitVec.xor_eq_zero_iff

theorem crcFinish_injective (p : Params) : Function.Injective (crcFinish p) := fun r q h => by
  have hrev := (BitVec.xor_left_inj _).mp h
  cases ho : p.crcRefOut
  · simpa only [ho, Bool.false_eq_true, if_false] using hrev
  · simpa only [ho, if_true, rev16_rev16] using congrArg rev16 hrev

theorem crcFinish_plain {p : Params} (ho : p.crcRefOut = false) (hx : p.crcXorOut = 0) (acc : Word) :
    crcFinish p acc = acc := by
  rw [crcFinish, ho, hx]
  exact BitVec.xor_zero

theorem crcFinish_reflected {p : Params} (ho : p.crcRefOut = true) (acc : Word) :
    crcFinish p acc = rev16 acc ^^^ p.crcXorOut := by
  rw [crcFinish, if_pos ho]

/-- Where the field order goes with the bit order, the finalised register of two bytes is the field that holds them. -/
theorem crcFinish_crcByte_append {p : Params} (hx : p.crcXorOut = 0) (hio : p.crcRefIn = p.crcRefOut)
    (hbe : p.crcFieldBE = !p.crcRefIn) (x y : Byte) :
    crcFinish p (crcByte p x ++ crcByte p y) = if p.crcFieldBE then x ++ y else y ++ x := by
  cases hi : p.crcRefIn
  · rw [crcFinish_plain (hio ▸ hi) hx, crcByte_plain hi, crcByte_plain hi, hbe, hi]
    rfl
  · rw [crcFinish_reflected (hio ▸ hi), crcByte_refIn hi, crcByte_refIn hi, rev16_append, rev8_rev8, rev8_rev8,
      hbe, hi, hx]
    exact BitVec.xor_zero

end Sys2Proof.Machine
end

section
/-! PROOFS. The reflected form of the Checksum Unit (spec 40, R86): bit reversal turns the shift to the left into the shift to
the right. -/

namespace Sys2Proof.Machine

theorem rev16_shiftLeft_one (r : Word) : rev16 (r <<< 1) = rev16 r >>> 1 := by
  ext i hi
  simp [rev16, BitVec.getElem_reverse, BitVec.getLsbD_reverse, Nat.add_comm]

theorem rev16_crcPoly : rev16 Config.crcPoly = 0x8408 := by decide

theorem getLsbD_zero_rev16 (r : Word) : (rev16 r).getLsbD 0 = r.getLsbD 15 := by
  rw [rev16, BitVec.getLsbD_reverse]
  rfl

theorem semiconj_rev16_crcShift : Function.Semiconj rev16 crcShift crcShiftReflected := fun r => by
  rw [crcShiftReflected, getLsbD_zero_rev16]
  cases hr : r.getLsbD 15
  · rw [crcShift_of_not_top hr, rev16_shiftLeft_one, if_neg Bool.false_ne_true]
  · rw [crcShift_of_top hr, rev16_xor, rev16_shiftLeft_one, rev16_crcPoly, if_pos rfl]

theorem rev16_rev8_append (d : Byte) : rev16 (rev8 d ++ 0#8) = zext16 d := by
  rw [rev16_append, rev8_rev8, zext16_eq_append]
  rfl

/-- One byte of the reflected procedure, on the bit-reversed register (R86). -/
theorem crcUpdateReflected_rev16 {p : Params} (hi : p.crcRefIn = true) (r : Word) (d : Byte) :
    crcUpdateReflected (rev16 r) d = rev16 (crcUpdate p r d) := by
  rw [crcUpdate_of_crcByte (crcByte_refIn hi d), semiconj_rev16_crcShift.iterate_right 8, rev16_xor, rev16_rev8_append]
  rfl

theorem crcRegisterReflected_eq {p : Params} (hi : p.crcRefIn = true) (bytes : List Byte) :
    crcRegisterReflected p bytes = rev16 (crcRegister p bytes) :=
  List.foldl_hom rev16 (crcUpdateReflected_rev16 hi)

end Sys2Proof.Machine
end

section
/-! PROOFS. The statements of the Checksum Unit (spec 40). -/

namespace Sys2Proof.Machine

/-- Settles O27: the table entry is the eight shifts of the high half, and the entries are computed. -/
theorem crcUpdateLinearAndTable : Obligations.CrcUpdateLinearAndTable := by
  refine ⟨crcUpdate_xor, crcUpdate_zero, fun p q hq => ?_⟩
  have entry (i : Byte) : crcUpdate q 0 i = crcShift^[8] (i ++ 0#8) := by
    rw [crcUpdate_of_crcByte (crcByte_plain hq i)]
    exact congrArg _ BitVec.zero_xor
  refine ⟨fun acc data => ?_, ?_⟩
  · rw [entry]
    exact crcUpdate_split p acc data
  · simp only [entry]
    decide

/-- Settles O28: bit reversal carries the one fold into the other. -/
theorem reflectedFormAgrees : Obligations.ReflectedFormAgrees := by
  refine ⟨rev16_crcPoly, fun p bytes hi ho => ⟨crcRegisterReflected_eq hi bytes, ?_⟩⟩
  rw [compute_eq, crcFinish_reflected ho, crcRegisterReflected_eq hi]

/-- Settles O29: finalisation keeps zero and is injective, and the register is zero after its own two bytes only. -/
theorem residueTestAcceptsSameFrames : Obligations.ResidueTestAcceptsSameFrames := by
  intro p bytes x y hx hio hbe
  have hzero : crcFinish p 0 = 0 := by
    rw [crcFinish, hx]
    cases p.crcRefOut <;> decide
  calc compute p (bytes ++ [x, y]) = 0
      ↔ crcRegister p (bytes ++ [x, y]) = 0 := by
        rw [compute_eq, ← (crcFinish_injective p).eq_iff (a := crcRegister p _), hzero]
    _ ↔ crcRegister p bytes = crcByte p x ++ crcByte p y := crcRegister_append_two_eq_zero_iff p bytes x y
    _ ↔ compute p bytes = if p.crcFieldBE then x ++ y else y ++ x := by
        rw [← (crcFinish_injective p).eq_iff, crcFinish_crcByte_append hx hio hbe, compute_eq]

/-- Settles O30: every stage from the two bytes to the checksum is injective. -/
theorem neighbouringBytesErrorDetected : Obligations.NeighbouringBytesErrorDetected := by
  intro p before after b c b' c' hne heq
  have hreg := crcFinish_injective p heq
  rw [crcRegister_append p (before ++ [b, c]), crcRegister_append p (before ++ [b', c'])] at hreg
  have htwo := foldl_crcUpdate_injective p after hreg
  rw [crcRegister_append_two, crcRegister_append_two] at htwo
  have hbytes := (BitVec.xor_right_inj _).mp (crcShift_injective.iterate 16 htwo)
  have hb : crcByte p b = crcByte p b' := by
    rw [← extractLsb'_append_high (crcByte p b) (crcByte p c), hbytes, extractLsb'_append_high]
  have hc : crcByte p c = crcByte p c' := by
    rw [← extractLsb'_append_low (crcByte p b) (crcByte p c), hbytes, extractLsb'_append_low]
  exact hne (Prod.ext (crcByte_injective p hb) (crcByte_injective p hc))

/-- Settles O23: the bytes 0 and 0xFF read the same in both bit orders. -/
theorem crcUpdResult : Obligations.CrcUpdResult := by
  refine ⟨fun s acc data => execCrcUpd_eq acc data s, fun p => ?_, fun p hi => ?_, fun p hi => ?_⟩
  · simp only [crcUpdate_of_crcByte (crcByte_zero p), crcUpdate_of_crcByte (crcByte_ones p)]
    decide
  · rw [crcUpdate_of_crcByte (crcByte_refIn hi _)]
    decide
  · simp only [crcUpdate_of_crcByte (crcByte_plain hi _)]
    decide

/-- Settles O24: the operation answers with `crcFinish`; the examples are computed. -/
theorem crcFinResult : Obligations.CrcFinResult :=
  ⟨fun s acc => execCrcFin_eq acc s, fun _ acc ho hx => crcFinish_plain ho hx acc, by decide⟩

/-- Settles O25: the check values are computed from the nine digits, `PREFIX` and the Hello header. -/
theorem checksumCheckValues : Obligations.ChecksumCheckValues :=
  ⟨fun p => compute_eq p [], by decide +kernel⟩

end Sys2Proof.Machine
end

section
/-! PROOFS. The operations of the Frame Assembler in their order of R94 to R107 (spec 41): what each `FEED` answers, and the
transition table. -/

namespace Sys2Proof.Machine

/-! ### What a `FEED` answers, by the rule that fires -/

section
variable {s : State} {bs : List Byte} {c : Byte}

theorem feed_lineEnd_of_corrupt (h : s.asm = .corrupt) : exec (.feed 0x0A) s = .next (s.toEmpty .resync) :=
  (execFeed_corrupt 0x0A h).trans (congrArg _ (whileCorrupt_lineEnd s))

theorem feed_other_of_corrupt (h : s.asm = .corrupt) (hc : c ≠ 0x0A) : exec (.feed c) s = .next (s.keep .swallow) :=
  (execFeed_corrupt c h).trans (congrArg _ (whileCorrupt_other hc))

theorem feed_oversize (ha : s.asm.appendsTo bs) (hlen : 122 ≤ bs.length + 1) :
    exec (.feed c) s = .next (s.corruptWith .corruptOversize) :=
  (execFeed_append c ha).trans (congrArg _ (afterAppend_oversize (by simpa using hlen)))

theorem feed_badPrefix (ha : s.asm.appendsTo bs) (hlen : bs.length + 1 < 122) (hp : ¬ agreesWithPrefix (bs ++ [c])) :
    exec (.feed c) s = .next (s.corruptWith .corruptPrefix) :=
  (execFeed_append c ha).trans (congrArg _ (afterAppend_badPrefix (by simpa using hlen) hp))

theorem feed_continues (ha : s.asm.appendsTo bs) (hlen : bs.length + 1 < 122) (hp : agreesWithPrefix (bs ++ [c]))
    (hopen : ¬ (bs.getLast? = some 0x0D ∧ c = 0x0A)) :
    exec (.feed c) s = .next (s.endWith (.accumulating (bs ++ [c])) .accum none) := by
  rw [← endsWithEom_snoc, Bool.not_eq_true] at hopen
  exact (execFeed_append c ha).trans (congrArg _ (afterAppend_continues (by simpa using hlen) hp hopen))

/-- Behind bytes that agree with `PREFIX`, the appended byte decides the test, and only while it is one of the first eight
(R104). -/
theorem agreesWithPrefix_snoc_iff (hbs : agreesWithPrefix bs) :
    agreesWithPrefix (bs ++ [c]) ↔ (bs.length + 1 ≤ 8 → Config.framePrefix[bs.length]? = some c) :=
  (agreesWithPrefix_snoc bs c).trans (and_iff_right hbs)

end

/-- Settles O11: `NOP` keeps the state. -/
theorem nopKeepsState : Obligations.NopKeepsState := fun _ => rfl

/-- Settles O12: `CLEAR` goes to `Empty` without a look at the state. -/
theorem clearEmpties : Obligations.ClearEmpties := fun _ => rfl

/-- Settles O13: a reserved word keeps the state. -/
theorem reservedKeepsState : Obligations.ReservedKeepsState := fun _ => rfl

/-- Settles O14 by the `Corrupt` arm of `FEED`. -/
theorem feedResynchronises : Obligations.FeedResynchronises := fun _ ha => feed_lineEnd_of_corrupt ha

/-- Settles O15: the state kept is the `Corrupt` one. -/
theorem feedSwallows : Obligations.FeedSwallows := by
  intro s c ha hc
  rw [← ha]
  exact feed_other_of_corrupt ha hc

/-- Settles O16: R24 allows no more than 121 bytes, so the bound is met by 121 only. -/
theorem feedOversize : Obligations.FeedOversize := by
  refine fun s bs c ha => ⟨fun hlen => feed_oversize ha hlen, fun hi => ?_⟩
  obtain ⟨hbound, -, -⟩ := inv_of_appendsTo hi ha
  omega

/-- Settles O17: under R24 the bytes held agree with `PREFIX`, so the appended one decides. -/
theorem feedBadPrefix : Obligations.FeedBadPrefix := by
  refine fun s bs c ha hlen => ⟨fun hp => feed_badPrefix ha hlen hp, fun hi => ?_⟩
  obtain ⟨-, hbs, -⟩ := inv_of_appendsTo hi ha
  rw [agreesWithPrefix_snoc_iff hbs, Classical.not_imp]

/-- Settles O18 by the last case of the append arm. -/
theorem feedContinues : Obligations.FeedContinues :=
  fun _ _ _ ha hlen hp hopen => feed_continues ha hlen hp hopen

/-- Settles O40: past the eighth byte the one comparison is not asked for. -/
theorem prefixTestIsOneComparison : Obligations.PrefixTestIsOneComparison := by
  intro bs c hbs
  rw [prefixMatches_iff] at hbs
  rw [prefixMatches_iff, agreesWithPrefix_snoc_iff hbs, ← Nat.not_le, ← imp_iff_not_or]

/-! ### The shortest frame -/

/-- An end marker lies behind `PREFIX`, which holds no byte of one (R105). -/
theorem ten_le_of_endsWithEom {buf : List Byte} (hp : agreesWithPrefix buf) (heom : endsWithEom buf = true) :
    10 ≤ buf.length := by
  obtain ⟨h2, hcr, -⟩ := (endsWithEom_iff buf).mp heom
  by_contra hlt
  rw [(agreesWithPrefix_iff buf).mp hp (buf.length - 2) (by omega)] at hcr
  exact Config.framePrefix_no_eom.1 (List.mem_of_getElem? hcr)

/-- Ten bytes that agree with `PREFIX` and end in an end marker have no byte left open (R105). -/
theorem eq_shortest_frame {buf : List Byte} (hp : agreesWithPrefix buf) (heom : endsWithEom buf = true)
    (hlen : buf.length = 10) : buf = Config.framePrefix ++ [0x0D, 0x0A] := by
  rw [agreesWithPrefix, hlen] at hp
  rw [endsWithEom, hlen, beq_iff_eq] at heom
  calc buf = buf.take 8 ++ buf.drop 8 := (List.take_append_drop 8 buf).symm
    _ = Config.framePrefix ++ [0x0D, 0x0A] := congrArg₂ (· ++ ·) hp heom

/-- The end-marker test succeeds on a completed frame (R101). -/
theorem endsWithEom_of_completesWith {s : State} {frame : List Byte} (h : s.completesWith frame) :
    endsWithEom frame = true := by
  obtain ⟨bs, -, rfl, hlast, -, -⟩ := h
  exact (endsWithEom_snoc bs 0x0A).mpr ⟨hlast, rfl⟩

/-- Settles O41: the length and the bytes of a frame from the tests it passed. -/
theorem shortestCompletion : Obligations.ShortestCompletion := by
  refine ⟨fun s frame h => ?_, fun s hs => ?_⟩
  · have heom := endsWithEom_of_completesWith h
    obtain ⟨-, -, -, -, hlen, hp⟩ := h
    exact ⟨ten_le_of_endsWithEom hp heom, by omega, eq_shortest_frame hp heom⟩
  · refine ⟨Config.framePrefix ++ [0x0D], ?_, rfl, by decide, by decide, rfl⟩
    rw [hs]
    rfl

/-! ### The transition table -/

/-- The report of a completion carries one of the four causes of R113. -/
theorem complete_result (s : State) (frame : List Byte) :
    ∃ r, (s.complete frame).result = some r ∧ r.cause ∈ completionCauses := by
  obtain ⟨-, h⟩ | ⟨-, h⟩ | ⟨-, h⟩ | ⟨-, h⟩ := complete_cases s frame
  · exact h ▸ ⟨_, rfl, by decide⟩
  · exact h ▸ ⟨_, rfl, by decide⟩
  · exact h ▸ ⟨_, rfl, by decide⟩
  · exact h ▸ ⟨_, rfl, List.mem_cons_self⟩

/-- A command that ends through `endWith` with one cause. -/
theorem endsIn_of_endWith {i : Instr} {s : State} {a : Assembler} {cause : Cause}
    (h : exec i s = .next (s.endWith a cause none)) : endsIn i s a [cause] :=
  ⟨_, _, h, rfl, rfl, List.mem_singleton_self cause⟩

section
variable {s : State} {bs : List Byte} {c : Byte} (hi : s.Inv) (ha : s.asm.appendsTo bs)
include hi ha

theorem endsIn_corrupt_of_badPrefix (h8 : bs.length + 1 ≤ 8) (hc : Config.framePrefix[bs.length]? ≠ some c) :
    endsIn (.feed c) s .corrupt [.corruptPrefix] := by
  obtain ⟨-, hbs, -⟩ := inv_of_appendsTo hi ha
  refine endsIn_of_endWith (feed_badPrefix ha (by omega) fun hp => hc ?_)
  exact (agreesWithPrefix_snoc_iff hbs).mp hp h8

theorem endsIn_empty_of_completes (h10 : 10 ≤ bs.length + 1) (h121 : bs.length + 1 ≤ 121)
    (hlast : bs.getLast? = some 0x0D) : endsIn (.feed 0x0A) s .empty completionCauses := by
  obtain ⟨-, hbs, -⟩ := inv_of_appendsTo hi ha
  have hframe : s.completesWith (bs ++ [0x0A]) :=
    ⟨bs, ha, rfl, hlast, by simp; omega, (agreesWithPrefix_snoc_iff hbs).mpr fun h8 => by omega⟩
  obtain ⟨r, hr, hcause⟩ := complete_result s (bs ++ [0x0A])
  exact ⟨_, r, execFeed_completes hframe, complete_asm s _, hr, hcause⟩

/-- The table asks for ten bytes before a completion; fewer that agree with `PREFIX` end in no end marker (R105). -/
theorem endsIn_accumulating_of_continues (h121 : bs.length + 1 ≤ 121)
    (hc : bs.length + 1 ≤ 8 → Config.framePrefix[bs.length]? = some c)
    (hopen : ¬ (10 ≤ bs.length + 1 ∧ bs.getLast? = some 0x0D ∧ c = 0x0A)) :
    endsIn (.feed c) s (.accumulating (bs ++ [c])) [.accum] := by
  obtain ⟨-, hbs, -⟩ := inv_of_appendsTo hi ha
  have hp : agreesWithPrefix (bs ++ [c]) := (agreesWithPrefix_snoc_iff hbs).mpr hc
  refine endsIn_of_endWith (feed_continues ha (by omega) hp fun heom => hopen ⟨?_, heom⟩)
  simpa using ten_le_of_endsWithEom hp ((endsWithEom_snoc bs c).mpr heom)

end

/-- Settles O35, row by row; the rows of `Empty` are those of the append arm with nothing held. -/
theorem transitionTable : Obligations.TransitionTable := by
  refine fun s hi => ⟨endsIn_of_endWith rfl, endsIn_of_endWith rfl, endsIn_of_endWith rfl,
    fun ha => endsIn_of_endWith (feed_lineEnd_of_corrupt ha), fun c ha hc => ?_, fun bs c ha => ⟨?_, ?_, ?_, ?_⟩,
    fun he => ?_⟩
  · rw [← ha]
    exact endsIn_of_endWith (feed_other_of_corrupt ha hc)
  · exact fun h122 => endsIn_of_endWith (feed_oversize ha (by omega))
  · exact endsIn_corrupt_of_badPrefix hi ha
  · rintro h10 h121 hlast rfl
    exact endsIn_empty_of_completes hi ha h10 h121 hlast
  · exact endsIn_accumulating_of_continues hi ha
  · have ha : s.asm.appendsTo [] := by
      rw [he]
      rfl
    refine ⟨endsIn_accumulating_of_continues hi ha (by decide) (fun _ => rfl) (by decide), fun c hc => ?_⟩
    exact endsIn_corrupt_of_badPrefix hi ha (by decide) fun h => hc (Option.some.inj h).symm

end Sys2Proof.Machine
end

section
/-! PROOFS. Runs of `FEED`s (spec 41, R109 to R111; spec 42, R126; spec 70, R162): one byte more of a run, the bytes
swallowed up to a line end, the bytes kept up to the end of an accumulation, and what every run keeps. -/

namespace Sys2Proof.Machine

/-! ### Runs in general -/

/-- Every run completes, and what every operation keeps holds at its end. -/
theorem run_keeps {P : State → Prop} (hP : ∀ {i s t}, P s → exec i s = .next t → P t) (is : List Instr) {s : State}
    (hs : P s) : ∃ rs t, run is s = some (rs, t) ∧ P t := by
  induction is generalizing s with
  | nil => exact ⟨[], s, rfl, hs⟩
  | cons i is ih =>
    obtain ⟨t, ht⟩ := exec_answers i s
    obtain ⟨rs, u, hrun, hu⟩ := ih (hP hs ht)
    exact ⟨reportsOf i t ++ rs, u, by rw [run_cons is ht, hrun, Option.map_some], hu⟩

theorem run_answers (is : List Instr) (s : State) : ∃ q, run is s = some q := by
  obtain ⟨rs, t, h, -⟩ := run_keeps (P := fun _ => True) (fun _ _ => trivial) is (s := s) trivial
  exact ⟨(rs, t), h⟩

/-- The invariants bound the bytes held (R24 (b), R110). -/
theorem count_le_of_inv {s : State} (hi : s.Inv) : s.asm.count ≤ 121 := by
  obtain hc | ⟨bs, ha⟩ := corrupt_or_appends s.asm
  · simp [hc]
  · rw [Assembler.count, appendsTo_bytes ha]
    exact (inv_of_appendsTo hi ha).1

/-- Settles O52: every operation keeps the invariants, so a run does, and they bound the buffer. -/
theorem runKeepsBufferBounded : Obligations.RunKeepsBufferBounded := by
  intro is s hi
  obtain ⟨rs, t, hrun, ht⟩ := run_keeps exec_keeps_inv is hi
  have hcount := count_le_of_inv ht
  exact ⟨rs, t, hrun, ht, hcount, by rw [State.len_toNat (by omega)]; exact hcount⟩

section
variable {s t : State} {c : Byte} {r : Report}

theorem run_feed_cons (cs : List Byte) (h : exec (.feed c) s = .next t) (hr : t.result = some r) :
    run (feeds (c :: cs)) s = (run (feeds cs) t).map fun q => (r :: q.1, q.2) := by
  have hreports : reportsOf (.feed c) t = [r] := congrArg Option.toList hr
  rw [feeds_cons, run_cons _ h, hreports]
  rfl

theorem run_feed_single (h : exec (.feed c) s = .next t) (hr : t.result = some r) :
    run (feeds [c]) s = some ([r], t) :=
  run_feed_cons [] h hr

theorem run_feeds_snoc {u : State} {cs : List Byte} {rs : List Report} (hrun : run (feeds cs) s = some (rs, t))
    (h : exec (.feed c) t = .next u) (hr : u.result = some r) :
    run (feeds (cs ++ [c])) s = some (rs ++ [r], u) := by
  rw [feeds_append, run_append hrun, run_feed_single h hr, Option.map_some]

end

/-! ### Resynchronisation -/

theorem run_swallows {line : List Byte} (hline : 0x0A ∉ line) {s : State} (hs : s.asm = .corrupt) :
    ∃ t, run (feeds line) s = some (List.replicate line.length (silent .swallow), t) ∧ t.asm = .corrupt := by
  induction line generalizing s with
  | nil => exact ⟨s, rfl, hs⟩
  | cons c cs ih =>
    obtain ⟨hc, hcs⟩ := not_or.mp (List.mem_cons.not.mp hline)
    obtain ⟨t, hrun, ht⟩ := ih hcs (s := s.keep .swallow) hs
    refine ⟨t, ?_, ht⟩
    rw [run_feed_cons cs (feed_other_of_corrupt hs (Ne.symm hc)) rfl, hrun]
    rfl

/-- Settles O50: the bytes before the `0A` are swallowed in `Corrupt`, and the `0A` ends it. -/
theorem resyncAtNextLineEnd : Obligations.ResyncAtNextLineEnd := by
  intro s line hs hline
  obtain ⟨t, hrun, ht⟩ := run_swallows hline hs
  exact ⟨_, run_feeds_snoc hrun (feed_lineEnd_of_corrupt ht) rfl, rfl⟩

/-- Settles O49: `0A` is not the first byte of `PREFIX`; from `Corrupt` on it is the next `0A` that counts. -/
theorem corruptingByteIsConsumed : Obligations.CorruptingByteIsConsumed := by
  intro s line hs hline
  have ha : s.asm.appendsTo [] := by
    rw [hs]
    rfl
  have hfirst : exec (.feed 0x0A) s = .next (s.corruptWith .corruptPrefix) :=
    feed_badPrefix ha (by decide) (by unfold agreesWithPrefix; decide)
  obtain ⟨t, hrun, ht⟩ := resyncAtNextLineEnd (s.corruptWith .corruptPrefix) line rfl hline
  refine ⟨t, ?_, ht⟩
  rw [List.cons_append, run_feed_cons _ hfirst rfl, hrun]
  rfl

/-! ### The end of an accumulation -/

/-- The report and the state after a byte that the append arm does not keep (R99 to R101). -/
def EndsAccumulation (r : Report) (t : State) : Prop :=
  (r.cause ∈ completionCauses ∧ t.asm = .empty) ∨
  (r.cause ∈ [Cause.corruptOversize, .corruptPrefix] ∧ t.asm = .corrupt)

/-- The append arm keeps the byte, which takes room in the buffer, or ends the accumulation (R103). -/
theorem feed_keeps_or_ends {s : State} {bs : List Byte} (c : Byte) (ha : s.asm.appendsTo bs) :
    (bs.length + 1 < 122 ∧ exec (.feed c) s = .next (s.endWith (.accumulating (bs ++ [c])) .accum none)) ∨
    ∃ r t, exec (.feed c) s = .next t ∧ t.result = some r ∧ EndsAccumulation r t := by
  have he : exec (.feed c) s = .next (s.afterAppend (bs ++ [c])) := execFeed_append c ha
  obtain ⟨-, h⟩ | ⟨-, -, h⟩ | ⟨-, -, -, h⟩ | ⟨hlen, -, -, h⟩ := afterAppend_cases s (bs ++ [c])
  · exact .inr ⟨_, _, h ▸ he, rfl, .inr ⟨List.mem_cons_self, rfl⟩⟩
  · exact .inr ⟨_, _, h ▸ he, rfl, .inr ⟨by decide, rfl⟩⟩
  · obtain ⟨r, hr, hcause⟩ := complete_result s (bs ++ [c])
    exact .inr ⟨r, _, h ▸ he, hr, .inl ⟨hcause, complete_asm s _⟩⟩
  · exact .inl ⟨by simpa using hlen, h ▸ he⟩

/-- Every kept byte takes room, so bytes enough to fill the buffer do not all report `ACCUM` (R111). -/
theorem accumulation_ends {cs bs : List Byte} {s : State} (ha : s.asm.appendsTo bs) (hroom : bs.length < 122)
    (hlen : 122 ≤ bs.length + cs.length) :
    ∃ k r t, k < cs.length ∧ run (feeds (cs.take (k + 1))) s = some (List.replicate k (silent .accum) ++ [r], t) ∧
      EndsAccumulation r t := by
  induction cs generalizing s bs with
  | nil => exact absurd hlen (Nat.not_le.mpr hroom)
  | cons c cs ih =>
    rw [List.length_cons] at hlen
    obtain ⟨hkept, he⟩ | ⟨r, t, he, hr, hend⟩ := feed_keeps_or_ends c ha
    · have hsnoc : (bs ++ [c]).length = bs.length + 1 := List.length_append
      obtain ⟨k, r, t, hk, hrun, hend⟩ :=
        ih (s := s.endWith (.accumulating (bs ++ [c])) .accum none) rfl (by omega) (by omega)
      refine ⟨k + 1, r, t, Nat.succ_lt_succ hk, ?_, hend⟩
      rw [List.take_succ_cons, run_feed_cons _ he rfl, hrun]
      rfl
    · exact ⟨0, r, t, Nat.succ_pos _, run_feed_single he hr, hend⟩

/-- Settles O51: the accumulation ends within the bytes, and the rest of them runs on from there. -/
theorem accumulatingEndsWithinBound : Obligations.AccumulatingEndsWithinBound := by
  intro s bytes cs hi hs hlen
  have ha : s.asm.appendsTo bytes := by
    rw [hs]
    rfl
  obtain ⟨hbound, -, -⟩ := inv_of_appendsTo hi ha
  obtain ⟨k, r, t, hk, hrun, hend⟩ := accumulation_ends (cs := cs) ha (by omega) (by omega)
  obtain ⟨rest, hrest⟩ := run_answers (feeds (cs.drop (k + 1))) t
  refine ⟨k, r, rest, t, hk, hrun, ?_, hend⟩
  rw [← List.take_append_drop (k + 1) cs, feeds_append, run_append hrun, hrest, Option.map_some]

/-! ### Streams that start with `PREFIX` -/

/-- A pair of the first bytes is a pair of the stream. -/
theorem eomAt_of_take {stream : List Byte} {n i : Nat} (h : eomAt (stream.take n) i) : i + 1 < n ∧ eomAt stream i := by
  obtain ⟨hcr, hlf⟩ := h
  have hi : i + 1 < (stream.take n).length := (List.getElem?_eq_some_iff.mp hlf).1
  rw [List.length_take] at hi
  rw [List.getElem?_take_of_lt (by omega)] at hcr hlf
  exact ⟨by omega, hcr, hlf⟩

/-- The end-marker test fires on a pair at the end. -/
theorem eomAt_of_endsWithEom {buf : List Byte} (h : endsWithEom buf = true) : eomAt buf (buf.length - 2) := by
  obtain ⟨h2, hcr, hlf⟩ := (endsWithEom_iff buf).mp h
  have hlast : buf.length - 2 + 1 = buf.length - 1 := by omega
  exact ⟨hcr, hlast ▸ hlf⟩

section
variable {stream : List Byte} (hprefix : Config.framePrefix <+: stream)
include hprefix

theorem getElem?_of_framePrefix {i : Nat} (h : i < 8) : stream[i]? = Config.framePrefix[i]? := by
  obtain ⟨rest, rfl⟩ := hprefix
  exact List.getElem?_append_left h

theorem agreesWithPrefix_take (n : Nat) : agreesWithPrefix (stream.take n) := by
  rw [agreesWithPrefix_iff, List.length_take]
  intro i hi
  rw [List.getElem?_take_of_lt (by omega), getElem?_of_framePrefix hprefix (by omega)]

/-- `PREFIX` holds no `0D`, so a pair stands behind it (R128). -/
theorem eight_le_of_eomAt {i : Nat} (h : eomAt stream i) : 8 ≤ i := by
  by_contra hlt
  have hcr := h.1
  rw [getElem?_of_framePrefix hprefix (by omega)] at hcr
  exact Config.framePrefix_no_eom.1 (List.mem_of_getElem? hcr)

/-- From `Empty`, the bytes of such a stream are kept one after the other while there is room and no pair. -/
theorem run_accumulates {s : State} (hs : s.asm = .empty) {n : Nat} (hn : n ≤ 121) (hlen : n ≤ stream.length)
    (hopen : ∀ i, i + 1 < n → ¬ eomAt stream i) :
    ∃ t, run (feeds (stream.take n)) s = some (List.replicate n (silent .accum), t) ∧
      t.asm.appendsTo (stream.take n) := by
  induction n with
  | zero => exact ⟨s, rfl, by rw [hs]; rfl⟩
  | succ n ih =>
    obtain ⟨t, hrun, ht⟩ := ih (by omega) (by omega) fun i hi => hopen i (by omega)
    have htake : stream.take (n + 1) = stream.take n ++ [stream[n]] := List.take_succ_eq_append_getElem hlen
    have hroom : (stream.take n).length + 1 < 122 := by
      rw [List.length_take]
      omega
    have hkeep := feed_continues ht hroom (htake ▸ agreesWithPrefix_take hprefix (n + 1)) fun h => by
      rw [← endsWithEom_snoc, ← htake] at h
      obtain ⟨hi, hpair⟩ := eomAt_of_take (eomAt_of_endsWithEom h)
      exact hopen _ hi hpair
    rw [htake, List.replicate_succ']
    exact ⟨_, run_feeds_snoc hrun hkeep rfl, rfl⟩

end

theorem framePrefix_prefix_frameEncode (p : Params) (id : Word) (payload : List Byte) :
    Config.framePrefix <+: frameEncode p id payload := by
  simp only [frameEncode, frameEncodeRaw, frameBody, List.append_assoc, List.prefix_append]

theorem frameEncode_length (p : Params) (id : Word) (payload : List Byte) :
    (frameEncode p id payload).length = 16 + payload.length := by
  have hfield : (fieldBytes p (compute p (frameBody id (BitVec.ofNat 16 payload.length) payload))).length = 2 := by
    unfold fieldBytes
    split <;> rfl
  rw [frameEncode, frameEncodeRaw, List.length_append, List.length_append, hfield]
  simp only [frameBody, leBytes, List.length_append, List.length_cons, List.length_nil, Config.framePrefix_length,
    Config.eom_eq]
  omega

/-- Settles O57: 121 bytes are kept, and with the next the buffer is full. -/
theorem oversizeFrameCorrupts : Obligations.OversizeFrameCorrupts := by
  intro s id payload hs hpayload hopen
  have hprefix := framePrefix_prefix_frameEncode s.params id payload
  have hlen : 121 < (frameEncode s.params id payload).length := by
    rw [frameEncode_length]
    omega
  obtain ⟨t, hrun, ht⟩ := run_accumulates hprefix hs le_rfl hlen.le
    fun i hi hpair => hopen i (eight_le_of_eomAt hprefix hpair) (by omega) hpair
  have hfull : 122 ≤ ((frameEncode s.params id payload).take 121).length + 1 := by
    rw [List.length_take]
    omega
  rw [List.take_succ_eq_append_getElem hlen]
  exact ⟨_, run_feeds_snoc hrun (feed_oversize ht hfull) rfl, rfl⟩

/-- A completed frame of fewer than 16 bytes (R114). -/
theorem complete_of_short (s : State) {frame : List Byte} (h : frame.length < 16) :
    s.complete frame = s.dropWith .dropRunt := by
  rw [State.complete, judge_runt h]

/-- Settles O58: the bytes up to the `0D` of the pair are kept, and its `0A` completes the frame. -/
theorem frameCutAtFirstEndMarker : Obligations.FrameCutAtFirstEndMarker := by
  intro s stream k hs hprefix hk heom hfirst
  obtain ⟨hcr, hlf⟩ := heom
  have hlen : k + 1 < stream.length := (List.getElem?_eq_some_iff.mp hlf).1
  obtain ⟨t, hrun, ht⟩ := run_accumulates hprefix hs (n := k + 1) (by omega) hlen.le fun i hi => hfirst i (by omega)
  have htake : stream.take (k + 2) = stream.take (k + 1) ++ [0x0A] := by
    rw [List.take_add_one, hlf]
    rfl
  have hsize : (stream.take (k + 2)).length = k + 2 := List.length_take_of_le hlen
  have hlast : (stream.take (k + 1)).getLast? = some 0x0D := by
    rw [List.take_add_one, hcr]
    exact List.getLast?_concat
  have hframe : t.completesWith (stream.take (k + 2)) :=
    ⟨_, ht, htake, hlast, by omega, agreesWithPrefix_take hprefix (k + 2)⟩
  obtain ⟨r, hr, hcause⟩ := complete_result t (stream.take (k + 2))
  have hall := run_feeds_snoc hrun (execFeed_completes hframe) hr
  rw [← htake] at hall
  refine ⟨r, _, hall, hcause, fun hshort => ?_, complete_asm t _⟩
  rw [complete_of_short t (hsize.trans_lt hshort)] at hr
  exact (Option.some.inj hr).symm

end Sys2Proof.Machine
end

section
/-! PROOFS. The four fates of a completed frame (spec 42, R113 to R122), the record it delivers, and the endings that lead to
`Empty`. -/

namespace Sys2Proof.Machine

/-! ### The verdict on a frame, and the fields of its record -/

section
variable {p : Params} {frame : List Byte}

/-- The checksum test as a test of the frame's cells, in the byte order of the field (R118, R119). -/
theorem compute_frameSpan_eq_frameField_iff {x y : Byte} (hlen : 16 ≤ frame.length)
    (hx : frame[frame.length - 4]? = some x) (hy : frame[frame.length - 3]? = some y) :
    compute p (frameSpan frame) = frameField p frame ↔
      compute p (frame.take (frame.length - 4)) = (if p.crcFieldBE then x ++ y else y ++ x) := by
  have hnext : frame.length - 3 = frame.length - 4 + 1 := by omega
  rw [frameSpan_eq, frameField_eq hx (hnext ▸ hy)]

theorem judge_badChecksum (hlen : 16 ≤ frame.length) (hc : compute p (frameSpan frame) ≠ frameField p frame) :
    judge p frame = .badChecksum := by
  rw [judge_long hlen, if_pos (bne_iff_ne.mpr hc)]

/-- Behind a good checksum the type table alone decides (R120, R121). -/
theorem judge_of_checksum (hlen : 16 ≤ frame.length) (hc : compute p (frameSpan frame) = frameField p frame) :
    judge p frame = if p.knownIds.knows (frameTypeId frame) then .good else .unknownType := by
  rw [judge_long hlen, hc, bne_self_eq_false, if_neg Bool.false_ne_true]

/-- A frame of fewer than 144 bytes has a payload length that fits its seven bits (R117). -/
theorem framePayloadLen_toNat (hlen : frame.length < 144) : (framePayloadLen frame).toNat = frame.length - 16 := by
  rw [framePayloadLen, Config.minFrame_eq, BitVec.toNat_ofNat, Nat.mod_eq_of_lt (by omega)]

theorem framePayload_length (frame : List Byte) : (framePayload frame).length = frame.length - 16 := by
  rw [framePayload_eq, List.length_take, List.length_drop]
  omega

/-- `len_match` compares the declared length with the number of payload bytes (R121). -/
theorem frameRecord_lenMatch (hlen : frame.length < 144) :
    (frameRecord frame).lenMatch = decide ((frameDeclaredLen frame).toNat = frame.length - 16) := by
  rw [Bool.eq_iff_iff, decide_eq_true_iff, ← framePayloadLen_toNat hlen]
  show (frameDeclaredLen frame == (framePayloadLen frame).setWidth 16) = true ↔ _
  rw [beq_iff_eq, ← BitVec.toNat_inj, BitVec.toNat_setWidth_of_le (by decide)]

end

/-! ### The fates, as the answer of the completing `FEED` -/

section
variable {s : State} {frame : List Byte} (h : s.completesWith frame)
include h

theorem feed_runt (hj : judge s.params frame = .runt) : exec (.feed 0x0A) s = .next (s.dropWith .dropRunt) :=
  (execFeed_completes h).trans (by rw [State.complete, hj])

theorem feed_badChecksum (hj : judge s.params frame = .badChecksum) :
    exec (.feed 0x0A) s = .next (s.dropWith .dropCrc) :=
  (execFeed_completes h).trans (by rw [State.complete, hj])

theorem feed_unknownType (hj : judge s.params frame = .unknownType) :
    exec (.feed 0x0A) s = .next (s.dropWith .dropUnknown) :=
  (execFeed_completes h).trans (by rw [State.complete, hj])

theorem feed_good (hj : judge s.params frame = .good) :
    exec (.feed 0x0A) s = .next (s.deliver (frameRecord frame)) :=
  (execFeed_completes h).trans (by rw [State.complete, hj])

end

/-- Settles O19: the runt verdict, on a frame that holds `PREFIX` and its end marker. -/
theorem feedDropsRunt : Obligations.FeedDropsRunt := by
  intro s frame h hshort
  obtain ⟨h10, -, -⟩ := shortestCompletion.1 s frame h
  exact ⟨h10, feed_runt h (judge_runt hshort)⟩

/-- Settles O20: the checksum test comes before the type table. -/
theorem feedDropsBadChecksum : Obligations.FeedDropsBadChecksum := by
  intro s frame x y h hlen hx hy hc
  exact feed_badChecksum h (judge_badChecksum hlen (mt (compute_frameSpan_eq_frameField_iff hlen hx hy).mp hc))

/-- Settles O21 by the verdict behind a good checksum. -/
theorem feedDropsUnknownType : Obligations.FeedDropsUnknownType := by
  intro s frame x y b8 b9 h hlen hx hy h8 h9 hc hknown
  have hid : frameTypeId frame = b9 ++ b8 := memRead16_eq h8 h9
  refine feed_unknownType h ?_
  rw [judge_of_checksum hlen ((compute_frameSpan_eq_frameField_iff hlen hx hy).mpr hc), hid, hknown]
  exact if_neg Bool.false_ne_true

/-- Settles O22: the verdict behind a good checksum, and the record's fields as cells of the frame. -/
theorem feedDeliversRecord : Obligations.FeedDeliversRecord := by
  intro s frame x y b8 b9 b10 b11 h hlen hx hy h8 h9 h10 h11 hc hknown
  have hid : frameTypeId frame = b9 ++ b8 := memRead16_eq h8 h9
  have hdlen : frameDeclaredLen frame = b11 ++ b10 := memRead16_eq h10 h11
  have hj : judge s.params frame = .good := by
    rw [judge_of_checksum hlen ((compute_frameSpan_eq_frameField_iff hlen hx hy).mpr hc), hid, hknown, if_pos rfl]
  obtain ⟨-, h121, -⟩ := shortestCompletion.1 s frame h
  have hmatch := frameRecord_lenMatch (frame := frame) (by omega)
  rw [feed_good h hj, ← hid, ← hdlen, ← hmatch, ← framePayload_eq]
  rfl

/-! ### What every delivery and every ending has in common -/

/-- A record is delivered by the completing `FEED` of a good frame only, and it is that frame's (R121, R127). -/
theorem good_of_record {i : Instr} {s t : State} {cause : Cause} {r : Record} (hi : i.isCommand = true)
    (h : exec i s = .next t) (hr : t.result = some ⟨cause, some r⟩) :
    ∃ frame, s.completesWith frame ∧ judge s.params frame = .good ∧ r = frameRecord frame := by
  obtain ⟨r', hr', -, hfeed⟩ := recordOnlyWithFrameOk i s t hi h
  obtain rfl : r' = ⟨cause, some r⟩ := Option.some.inj (hr'.symm.trans hr)
  obtain ⟨rfl, frame, hframe⟩ := hfeed rfl
  obtain rfl := Host.Outcome.next.inj ((execFeed_completes hframe).symm.trans h)
  refine ⟨frame, hframe, ?_⟩
  obtain ⟨-, hc⟩ | ⟨-, hc⟩ | ⟨-, hc⟩ | ⟨hj, hc⟩ := complete_cases s frame
  · simp [hc] at hr
  · simp [hc] at hr
  · simp [hc] at hr
  · rw [hc, State.deliver_result] at hr
    cases hr
    exact ⟨hj, rfl⟩

/-- Settles O38: the frame delivered has 16 to 121 bytes, and its record counts those between header and trailer. -/
theorem deliveredRecordBounds : Obligations.DeliveredRecordBounds := by
  intro i s t cause r hi h hr
  obtain ⟨frame, hframe, hj, rfl⟩ := good_of_record hi h hr
  have hlong : 16 ≤ frame.length := le_length_of_judge hj (by decide)
  obtain ⟨-, h121, -⟩ := shortestCompletion.1 s frame hframe
  have hpayload : (frameRecord frame).payload.length = frame.length - 16 := framePayload_length frame
  rw [hpayload, frameRecord_lenMatch (by omega), decide_eq_true_iff]
  exact ⟨by omega, framePayloadLen_toNat (by omega), Iff.rfl, frame, hframe, by omega⟩

/-- The causes of `CLEAR`, of a resynchronisation and of a completion all stand for the way to `Empty` (R65). -/
theorem CauseMeans.asm_empty {i : Instr} {s t : State} {cause : Cause} (h : CauseMeans i s t cause)
    (hc : cause ∈ [Cause.cleared, .resync, .frameOk, .dropRunt, .dropCrc, .dropUnknown]) : t.asm = .empty := by
  simp only [List.mem_cons, List.not_mem_nil, or_false] at hc
  obtain rfl | rfl | rfl | rfl | rfl | rfl := hc
  · exact h.2
  · exact h.2.2
  · exact h.2
  · exact h.2
  · exact h.2
  · exact h.2

/-- Settles O44: a command writes the assembler, the report and the counter alone, and by its cause the assembler is
`Empty`. -/
theorem endingsLeadToEmpty : Obligations.EndingsLeadToEmpty := by
  intro i s t r hi h hr hcause
  obtain ⟨u, -, hu, -, a, cause, out, rfl, -⟩ := exec_endAlike hi (rfl : s.asm = s.asm) rfl
  obtain rfl := Host.Outcome.next.inj (hu.symm.trans h)
  obtain ⟨r', hr', hmeans, -⟩ := command_reportsTruly hi h
  obtain rfl := Option.some.inj (hr'.symm.trans hr)
  have hempty : a = .empty := hmeans.asm_empty hcause
  rw [hempty]
  rfl

end Sys2Proof.Machine
end

section
/-! PROOFS. The frames that a sender builds (spec 30, R53 to R60): their cells as the completion reads them, and the verdict and
the record they get (spec 42, R115 to R121). -/

namespace Sys2Proof.Machine

/-- A field is put together from its two bytes (R37). -/
theorem hiByte_append_loByte (v : Word) : hiByte v ++ loByte v = v :=
  (BitVec.extractLsb'_append_extractLsb'_eq_extractLsb' rfl).trans BitVec.extractLsb'_eq_self

/-- The checksum field is two bytes that read back as the checksum, in the byte order of `CRC_FIELD_BE` (R38, R118). -/
theorem fieldBytes_eq_pair (p : Params) (v : Word) :
    ∃ x y, fieldBytes p v = [x, y] ∧ (if p.crcFieldBE then x ++ y else y ++ x) = v := by
  cases hbe : p.crcFieldBE with
  | true => exact ⟨hiByte v, loByte v, by rw [fieldBytes, hbe]; rfl, hiByte_append_loByte v⟩
  | false => exact ⟨loByte v, hiByte v, by rw [fieldBytes, hbe]; rfl, hiByte_append_loByte v⟩

theorem frameBody_length (id dlen : Word) (payload : List Byte) :
    (frameBody id dlen payload).length = 12 + payload.length := by
  simp only [frameBody, leBytes, List.length_append, List.length_cons, List.length_nil, Config.framePrefix_length]

section
variable (p : Params) (id dlen : Word) (payload : List Byte)

/-- The bytes of a frame: its body, the checksum of the body, the end marker (R53, R58, R60). -/
theorem frameEncodeRaw_eq_body_append :
    ∃ x y, frameEncodeRaw p id dlen payload = frameBody id dlen payload ++ [x, y, 0x0D, 0x0A] ∧
      (if p.crcFieldBE then x ++ y else y ++ x) = compute p (frameBody id dlen payload) := by
  obtain ⟨x, y, hfield, hvalue⟩ := fieldBytes_eq_pair p (compute p (frameBody id dlen payload))
  refine ⟨x, y, ?_, hvalue⟩
  rw [frameEncodeRaw, hfield, List.append_assoc]
  rfl

theorem frameEncodeRaw_length : (frameEncodeRaw p id dlen payload).length = 16 + payload.length := by
  obtain ⟨x, y, hframe, -⟩ := frameEncodeRaw_eq_body_append p id dlen payload
  rw [hframe, List.length_append, frameBody_length, Nat.add_right_comm]
  rfl

theorem framePrefix_prefix_frameEncodeRaw : Config.framePrefix <+: frameEncodeRaw p id dlen payload := by
  simp only [frameEncodeRaw, frameBody, List.append_assoc, List.prefix_append]

/-- The last byte of a frame, behind the `0D` (R59). -/
theorem frameEncodeRaw_eq_take_append : frameEncodeRaw p id dlen payload =
    (frameEncodeRaw p id dlen payload).take (15 + payload.length) ++ [0x0A] := by
  obtain ⟨x, y, hframe, -⟩ := frameEncodeRaw_eq_body_append p id dlen payload
  have hsnoc : frameBody id dlen payload ++ [x, y, 0x0D, 0x0A] =
      (frameBody id dlen payload ++ [x, y, 0x0D]) ++ [0x0A] := by simp
  have hlen : (frameBody id dlen payload ++ [x, y, 0x0D]).length = 15 + payload.length := by
    rw [List.length_append, frameBody_length, Nat.add_right_comm]
    rfl
  rw [hframe, hsnoc, List.take_left' hlen]

/-- The byte before the last one of a frame (R59). -/
theorem frameEncodeRaw_getElem?_cr : (frameEncodeRaw p id dlen payload)[14 + payload.length]? = some 0x0D := by
  obtain ⟨x, y, hframe, -⟩ := frameEncodeRaw_eq_body_append p id dlen payload
  have hindex : 14 + payload.length = (frameBody id dlen payload).length + 2 := by
    rw [frameBody_length]
    omega
  rw [hframe, hindex, List.getElem?_append_right (Nat.le_add_right _ _), Nat.add_sub_cancel_left]
  rfl

@[simp] theorem frameTypeId_frameEncodeRaw : frameTypeId (frameEncodeRaw p id dlen payload) = id :=
  hiByte_append_loByte id

@[simp] theorem frameDeclaredLen_frameEncodeRaw : frameDeclaredLen (frameEncodeRaw p id dlen payload) = dlen :=
  hiByte_append_loByte dlen

@[simp] theorem framePayload_frameEncodeRaw : framePayload (frameEncodeRaw p id dlen payload) = payload := by
  have hdrop : (frameEncodeRaw p id dlen payload).drop 12 =
      payload ++ fieldBytes p (compute p (frameBody id dlen payload)) ++ Config.eom := rfl
  rw [framePayload_eq, hdrop, frameEncodeRaw_length, Nat.add_sub_cancel_left, List.append_assoc, List.take_left]

/-- A frame as built passes the checksum test, whatever the parameters (R119). -/
theorem compute_frameSpan_frameEncodeRaw : compute p (frameSpan (frameEncodeRaw p id dlen payload)) =
    frameField p (frameEncodeRaw p id dlen payload) := by
  have hlen := frameEncodeRaw_length p id dlen payload
  obtain ⟨x, y, hframe, hvalue⟩ := frameEncodeRaw_eq_body_append p id dlen payload
  have h4 : (frameEncodeRaw p id dlen payload).length - 4 = (frameBody id dlen payload).length := by
    rw [hlen, frameBody_length]
    omega
  have h3 : (frameEncodeRaw p id dlen payload).length - 3 = (frameBody id dlen payload).length + 1 := by omega
  rw [compute_frameSpan_eq_frameField_iff (x := x) (y := y) (by omega), h4, hframe, List.take_left, hvalue]
  · rw [h4, hframe, List.getElem?_append_right le_rfl, Nat.sub_self]
    rfl
  · rw [h3, hframe, List.getElem?_append_right (Nat.le_add_right _ _), Nat.add_sub_cancel_left]
    rfl

/-- Only the id decides the verdict on a frame as built: neither its length nor the declared one does (R120, R124). -/
theorem judge_frameEncodeRaw : judge p (frameEncodeRaw p id dlen payload) =
    if p.knownIds.knows id then .good else .unknownType := by
  rw [judge_of_checksum (by rw [frameEncodeRaw_length]; omega) (compute_frameSpan_frameEncodeRaw p id dlen payload),
    frameTypeId_frameEncodeRaw]

/-- The record of a frame as built (R121). -/
theorem frameRecord_frameEncodeRaw (hlen : payload.length ≤ 105) :
    frameRecord (frameEncodeRaw p id dlen payload) =
      { typeId := id
        declaredLen := dlen
        payloadLen := BitVec.ofNat 7 payload.length
        lenMatch := decide (dlen.toNat = payload.length)
        payload := payload } := by
  have hcount : (frameEncodeRaw p id dlen payload).length - 16 = payload.length := by
    rw [frameEncodeRaw_length, Nat.add_sub_cancel_left]
  have hmatch := frameRecord_lenMatch (frame := frameEncodeRaw p id dlen payload) (by rw [frameEncodeRaw_length]; omega)
  have hpayloadLen : framePayloadLen (frameEncodeRaw p id dlen payload) = BitVec.ofNat 7 payload.length := by
    rw [framePayloadLen, Config.minFrame_eq, hcount]
  rw [frameDeclaredLen_frameEncodeRaw, hcount] at hmatch
  rw [← hmatch, ← hpayloadLen, Record.mk.injEq]
  exact ⟨frameTypeId_frameEncodeRaw .., frameDeclaredLen_frameEncodeRaw .., rfl, rfl, framePayload_frameEncodeRaw ..⟩

end

end Sys2Proof.Machine
end

section
/-! PROOFS. Frames as built, fed from `Empty` (spec 42, R120, R124, R128): up to its last byte such a frame is kept, and a run
that keeps all but the last byte has passed every test of the append arm. -/

namespace Sys2Proof.Machine

/-! ### Runs forward -/

/-- No operation writes a parameter (R148). -/
theorem exec_keeps_params {i : Instr} {s t : State} (h : exec i s = .next t) : t.params = s.params := by
  cases hi : i.isCommand with
  | true =>
    obtain ⟨hp, -⟩ := commandFrame i s t hi h
    exact hp
  | false =>
    cases i with
    | nop | feed | clear | reserved => cases hi
    | crcUpd acc data => exact (Host.Outcome.next.inj h) ▸ rfl
    | crcFin acc => exact (Host.Outcome.next.inj h) ▸ rfl

/-- What every operation keeps holds at the end of a run. -/
theorem at_end_of_run {P : State → Prop} (hP : ∀ {i s t}, P s → exec i s = .next t → P t) {is : List Instr}
    {s t : State} {rs : List Report} (hs : P s) (hrun : run is s = some (rs, t)) : P t := by
  obtain ⟨rs', t', hrun', ht⟩ := run_keeps hP is hs
  cases hrun.symm.trans hrun'
  exact ht

/-- No run writes a parameter (R148). -/
theorem params_at_end_of_run {is : List Instr} {s t : State} {rs : List Report} (hrun : run is s = some (rs, t)) :
    t.params = s.params :=
  at_end_of_run (P := (·.params = s.params)) (fun hp h => (exec_keeps_params h).trans hp) rfl hrun

section
variable {s : State} {id dlen : Word} {payload : List Byte} (hs : s.asm = .empty) (hlen : payload.length ≤ 105)
  (hopen : ∀ i, 8 ≤ i → i ≤ (frameEncodeRaw s.params id dlen payload).length - 4 →
    ¬ eomAt (frameEncodeRaw s.params id dlen payload) i)
include hs hlen hopen

/-- Every byte of the frame but the last is kept, and the last completes it: the byte at `L - 2` is `0D`, so no pair stands at
`L - 3` either. -/
theorem run_frameEncodeRaw_to_completion : ∃ t,
    run (feeds ((frameEncodeRaw s.params id dlen payload).take (15 + payload.length))) s =
      some (List.replicate (15 + payload.length) (silent .accum), t) ∧
    t.completesWith (frameEncodeRaw s.params id dlen payload) ∧ t.params = s.params := by
  have hprefix := framePrefix_prefix_frameEncodeRaw s.params id dlen payload
  have hsize := frameEncodeRaw_length s.params id dlen payload
  have hcr := frameEncodeRaw_getElem?_cr s.params id dlen payload
  have hsnoc := frameEncodeRaw_eq_take_append s.params id dlen payload
  generalize frameEncodeRaw s.params id dlen payload = frame at *
  have hfirst : ∀ i, i + 1 < 15 + payload.length → ¬ eomAt frame i := by
    intro i hi hpair
    by_cases hend : i + 1 = 14 + payload.length
    · have hlf := hpair.2
      rw [hend, hcr] at hlf
      exact absurd (Option.some.inj hlf) (by decide)
    · exact hopen i (eight_le_of_eomAt hprefix hpair) (by omega) hpair
  obtain ⟨t, hrun, ht⟩ := run_accumulates hprefix hs (n := 15 + payload.length) (by omega) (by omega) hfirst
  have hlast : (frame.take (15 + payload.length)).getLast? = some 0x0D := by
    rw [List.getLast?_take, if_neg (by omega), show 15 + payload.length - 1 = 14 + payload.length by omega, hcr]
    rfl
  have hagrees := agreesWithPrefix_take hprefix frame.length
  rw [List.take_length] at hagrees
  exact ⟨t, hrun, ⟨_, ht, hsnoc, hlast, by omega, hagrees⟩,
    params_at_end_of_run hrun⟩

theorem run_frameEncodeRaw_of_known (hknown : s.params.knownIds.knows id = true) :
    ∃ t, run (feeds (frameEncodeRaw s.params id dlen payload)) s =
      some (List.replicate (15 + payload.length) (silent .accum) ++
        [⟨.frameOk, some
          { typeId := id
            declaredLen := dlen
            payloadLen := BitVec.ofNat 7 payload.length
            lenMatch := decide (dlen.toNat = payload.length)
            payload := payload }⟩], t) ∧ t.asm = .empty := by
  obtain ⟨t, hrun, hframe, hp⟩ := run_frameEncodeRaw_to_completion hs hlen hopen
  have hj : judge t.params (frameEncodeRaw s.params id dlen payload) = .good := by
    rw [hp, judge_frameEncodeRaw, if_pos hknown]
  rw [frameEncodeRaw_eq_take_append, ← frameRecord_frameEncodeRaw s.params id dlen payload hlen]
  exact ⟨_, run_feeds_snoc hrun (feed_good hframe hj) rfl, rfl⟩

theorem run_frameEncodeRaw_of_unknown (hknown : s.params.knownIds.knows id = false) :
    ∃ t, run (feeds (frameEncodeRaw s.params id dlen payload)) s =
      some (List.replicate (15 + payload.length) (silent .accum) ++ [silent .dropUnknown], t) ∧ t.asm = .empty := by
  obtain ⟨t, hrun, hframe, hp⟩ := run_frameEncodeRaw_to_completion hs hlen hopen
  have hj : judge t.params (frameEncodeRaw s.params id dlen payload) = .unknownType := by
    rw [hp, judge_frameEncodeRaw, hknown, if_neg Bool.false_ne_true]
  rw [frameEncodeRaw_eq_take_append]
  exact ⟨_, run_feeds_snoc hrun (feed_unknownType hframe hj) rfl, rfl⟩

end

/-- Settles O55: the declared length takes no part in the verdict. -/
theorem rawFrameDelivered : Obligations.RawFrameDelivered := by
  intro s id dlen payload hs hlen hopen hknown
  exact run_frameEncodeRaw_of_known hs hlen hopen hknown

/-- Settles O56: a frame of `frame_encode` is one of `frame_encode_raw` with its own length declared. -/
theorem unknownIdFrameDropped : Obligations.UnknownIdFrameDropped := by
  intro s id payload hs hlen hopen hknown
  exact run_frameEncodeRaw_of_unknown hs hlen hopen hknown

/-! ### Runs backward: what the reports tell -/

theorem run_feed_cons_inv {s t : State} {c : Byte} {cs : List Byte} {r : Report} {rs : List Report}
    (hrun : run (feeds (c :: cs)) s = some (r :: rs, t)) :
    ∃ u, exec (.feed c) s = .next u ∧ u.result = some r ∧ run (feeds cs) u = some (rs, t) := by
  obtain ⟨u, hu⟩ := exec_answers (.feed c) s
  obtain ⟨r', hr', -⟩ := command_reportsTruly rfl hu
  rw [run_feed_cons cs hu hr', Option.map_eq_some_iff] at hrun
  obtain ⟨⟨rs', t'⟩, hrest, heq⟩ := hrun
  cases heq
  exact ⟨u, hu, hr', hrest⟩

theorem run_feeds_snoc_inv {s t : State} {c : Byte} {cs : List Byte} {r : Report} {rs : List Report}
    (hrun : run (feeds (cs ++ [c])) s = some (rs ++ [r], t)) :
    ∃ u, run (feeds cs) s = some (rs, u) ∧ exec (.feed c) u = .next t ∧ t.result = some r := by
  obtain ⟨⟨rs', u⟩, hfront⟩ := run_answers (feeds cs) s
  obtain ⟨v, hv⟩ := exec_answers (.feed c) u
  obtain ⟨r', hr', -⟩ := command_reportsTruly rfl hv
  rw [run_feeds_snoc hfront hv hr', Option.some.injEq, Prod.mk.injEq] at hrun
  obtain ⟨hreports, rfl⟩ := hrun
  obtain ⟨rfl, hlast⟩ := List.append_inj' hreports rfl
  obtain rfl := List.singleton_inj.mp hlast
  exact ⟨u, hfront, hv, hr'⟩

/-- Bytes that all report `ACCUM` stand in the buffer behind those held before (R102). -/
theorem appendsTo_of_run_accum {cs bs : List Byte} {s t : State} (ha : s.asm.appendsTo bs)
    (hrun : run (feeds cs) s = some (List.replicate cs.length (silent .accum), t)) : t.asm.appendsTo (bs ++ cs) := by
  induction cs generalizing s bs with
  | nil =>
    cases hrun
    rwa [List.append_nil]
  | cons c cs ih =>
    obtain ⟨u, hu, hr, hrest⟩ := run_feed_cons_inv hrun
    obtain ⟨r, hr', hcause, -⟩ := command_reportsTruly rfl hu
    obtain rfl := Option.some.inj (hr.symm.trans hr')
    obtain ⟨c', bs', hfeed, ha', hkept⟩ := hcause
    cases hfeed
    obtain rfl : bs' = bs := (appendsTo_bytes ha').symm.trans (appendsTo_bytes ha)
    have hu : u.asm.appendsTo (bs' ++ [c]) := by
      rw [hkept]
      rfl
    rw [List.append_cons]
    exact ih hu hrest

/-- The bytes held decide which frame an `0A` completes. -/
theorem eq_of_completesWith {s : State} {bs frame : List Byte} (ha : s.asm.appendsTo bs) (h : s.completesWith frame) :
    frame = bs ++ [0x0A] := by
  obtain ⟨bs', ha', rfl, -⟩ := h
  rw [← appendsTo_bytes ha, appendsTo_bytes ha']

/-- From `Empty`, a frame delivered at its last byte, behind `ACCUM` alone, passed every test: its length is within the bound,
no pair stood in the buffer, and the verdict is the good one. -/
theorem passes_of_run_delivers {s t : State} {held : List Byte} {r : Record} (hs : s.asm = .empty)
    (hrun : run (feeds (held ++ [0x0A])) s =
      some (List.replicate held.length (silent .accum) ++ [⟨.frameOk, some r⟩], t)) :
    (held ++ [0x0A]).length ≤ 121 ∧ (∀ i, ¬ eomAt held i) ∧ judge s.params (held ++ [0x0A]) = .good := by
  obtain ⟨u, hfront, hlast, hr⟩ := run_feeds_snoc_inv hrun
  have ha : s.asm.appendsTo [] := by
    rw [hs]
    rfl
  have hu : u.asm.appendsTo held := appendsTo_of_run_accum ha hfront
  have hnoEom : u.asm.holdsNoEom :=
    at_end_of_run (P := (·.asm.holdsNoEom)) exec_keeps_holdsNoEom (hs ▸ holdsNoEom_empty) hfront
  obtain ⟨frame, hframe, hgood, -⟩ := good_of_record rfl hlast hr
  obtain rfl := eq_of_completesWith hu hframe
  obtain ⟨-, h121, -⟩ := shortestCompletion.1 u _ hframe
  exact ⟨h121, appendsTo_bytes hu ▸ hnoEom, params_at_end_of_run hfront ▸ hgood⟩

/-- So a frame as built that is delivered at its last byte meets the three conditions of R128. -/
theorem conditions_of_run_delivers {s t : State} {id dlen : Word} {payload : List Byte} {r : Record}
    (hs : s.asm = .empty)
    (hrun : run (feeds (frameEncodeRaw s.params id dlen payload)) s =
      some (List.replicate ((frameEncodeRaw s.params id dlen payload).length - 1) (silent .accum) ++
        [⟨.frameOk, some r⟩], t)) :
    (frameEncodeRaw s.params id dlen payload).length ≤ 121 ∧
    (∀ i, 8 ≤ i → i ≤ (frameEncodeRaw s.params id dlen payload).length - 4 →
      ¬ eomAt (frameEncodeRaw s.params id dlen payload) i) ∧
    s.params.knownIds.knows id = true := by
  have hj := judge_frameEncodeRaw s.params id dlen payload
  obtain ⟨front, hsnoc⟩ : ∃ front, frameEncodeRaw s.params id dlen payload = front ++ [0x0A] :=
    ⟨_, frameEncodeRaw_eq_take_append s.params id dlen payload⟩
  have hfront : (front ++ [(0x0A : Byte)]).length = front.length + 1 := List.length_append
  rw [hsnoc] at hj hrun ⊢
  rw [hfront, Nat.add_sub_cancel] at hrun
  obtain ⟨h121, hnoEom, hgood⟩ := passes_of_run_delivers hs hrun
  refine ⟨h121, fun i h8 hi hpair => hnoEom i ?_, ?_⟩
  · have hinside : i + 1 < front.length := by omega
    rwa [eomAt, List.getElem?_append_left (by omega), List.getElem?_append_left hinside] at hpair
  · by_contra hunknown
    rw [hj, if_neg hunknown] at hgood
    cases hgood

/-- Settles O54: by the tests and the verdict, and back by what the reports tell of them. -/
theorem wellFormedFrameDelivered : Obligations.WellFormedFrameDelivered := by
  intro s id payload hs
  refine ⟨fun ⟨t, hrun, _⟩ => conditions_of_run_delivers hs hrun, fun ⟨hlen, hopen, hknown⟩ => ?_⟩
  have hsize := frameEncode_length s.params id payload
  have hpayload : payload.length ≤ 105 := by omega
  have hmatch : decide ((BitVec.ofNat 16 payload.length).toNat = payload.length) = true := by
    rw [decide_eq_true_iff, BitVec.toNat_ofNat, Nat.mod_eq_of_lt (by omega)]
  have hrun := run_frameEncodeRaw_of_known hs hpayload hopen hknown
  rw [hmatch] at hrun
  rw [hsize, show 16 + payload.length - 1 = 15 + payload.length by omega]
  exact hrun

end Sys2Proof.Machine
end

section
/-! PROOFS. The open parameters are fixed when the block is built (spec 70, R148, R152): no step writes one. -/

namespace Sys2Proof.Machine

/-- An idle step keeps the state, a presented word is one operation, and the reset event spares the parameters (R148). -/
theorem step_keeps_params {s t : State} (h : step s = .next t) : t.params = s.params := by
  obtain ⟨-, rfl⟩ | ⟨w, rest, -, he⟩ | ⟨rest, -, rfl⟩ := step_cases h
  · rfl
  · exact (exec_keeps_params he).trans rfl
  · exact State.resetEvent_params _

/-- Settles O48: step by step, and along a run operation by operation. -/
theorem parametersNeverChange : Obligations.ParametersNeverChange :=
  ⟨fun _ _ => step_keeps_params, fun _ _ _ _ => params_at_end_of_run⟩

end Sys2Proof.Machine
end

section
/-! PROOFS. The encoder and the decoder of the port words (spec 30, R62, R67, R70; log 10): decoding undoes encoding, and
encoding undoes decoding up to the `data` field of the command words that ignore it. -/

namespace Sys2Proof

/-- Every value of the two-bit `op` field has its row (R63). -/
theorem cmdOp_cases (w : BitVec 10) : cmdOp w = 0b00 ∨ cmdOp w = 0b01 ∨ cmdOp w = 0b10 ∨ cmdOp w = 0b11 := by
  have h : ∀ op : BitVec 2, op = 0b00 ∨ op = 0b01 ∨ op = 0b10 ∨ op = 0b11 := by decide
  exact h (cmdOp w)

/-- No bit of the CRCUPD operand word is ignored (R67). -/
theorem encode_decodeCrcUpd (u : BitVec 24) : encode (decodeCrcUpd u) = .crcUpd u :=
  congrArg PortWord.crcUpd
    ((BitVec.extractLsb'_append_extractLsb'_eq_extractLsb' rfl).trans BitVec.extractLsb'_eq_self)

/-- A `FEED` word is canonical (R70). -/
theorem encode_decodeCommand_of_feed {w : BitVec 10} (h : cmdOp w = 0b01) : encode (decodeCommand w) = .command w := by
  rw [decodeCommand_feed h, encode, ← h, cmdWord_cmdOp_cmdData]

/-- The canonical word of every other row has the word's `op` field and no `data` (R70; log 10). -/
theorem encode_decodeCommand_of_not_feed {w : BitVec 10} (h : cmdOp w ≠ 0b01) :
    encode (decodeCommand w) = .command (w &&& 0x300) := by
  rw [and_opMask]
  obtain hop | hop | hop | hop := cmdOp_cases w
  · rw [decodeCommand_nop hop, encode, hop]
  · exact absurd hop h
  · rw [decodeCommand_clear hop, encode, hop]
  · rw [decodeCommand_reserved hop, encode, hop]

/-- The canonical word of a command word (R70; log 10). -/
theorem encode_decodeCommand (w : BitVec 10) :
    encode (decodeCommand w) = .command (if cmdOp w = 0b01 then w else w &&& 0x300) := by
  split
  next h => exact encode_decodeCommand_of_feed h
  next h => exact encode_decodeCommand_of_not_feed h

/-- The decoder reads an instruction back from the word that `encode` writes (R62, R67). -/
theorem decode_encode (i : Instr) : decode (encode i) = i := by
  cases i with
  | nop => exact decodeCommand_nop (cmdOp_cmdWord _ _)
  | feed c =>
    calc
      decode (encode (.feed c)) = .feed (cmdData (cmdWord 0b01 c)) := decodeCommand_feed (cmdOp_cmdWord _ _)
      _ = .feed c := by rw [cmdData_cmdWord]
  | clear => exact decodeCommand_clear (cmdOp_cmdWord _ _)
  | reserved => exact decodeCommand_reserved (cmdOp_cmdWord _ _)
  | crcUpd acc data => exact congrArg₂ Instr.crcUpd (extractLsb'_append_high acc data) (extractLsb'_append_low acc data)
  | crcFin acc => rfl

/-- Every operand value is legal, because its type has the width of its field (R67). -/
theorem Instr.wellFormed_eq_true (i : Instr) : i.wellFormed = true := by
  cases i <;> rfl

end Sys2Proof

namespace Sys2Proof.Machine

/-- Settles O10: one way by the cases of the instruction, the other way port by port. -/
theorem encodeDecodeRoundTrip : Obligations.EncodeDecodeRoundTrip :=
  ⟨fun i => ⟨i.wellFormed_eq_true, decode_encode i⟩, encode_decodeCrcUpd, fun _ => rfl, encode_decodeCommand⟩

/-- Settles O8: the `op` field of each command word computes to the row's value, and so do the operands. -/
theorem decodeOfWrittenWords : Obligations.DecodeOfWrittenWords :=
  ⟨decodeCommand_nop rfl, decodeCommand_nop rfl, decodeCommand_feed rfl, decodeCommand_clear rfl,
    decodeCommand_reserved rfl, rfl, rfl⟩

end Sys2Proof.Machine
end

section
/-! PROOFS. What a step does with the stimulus presented (spec 00, R17, R29; spec 70, R147; log 4, log 5, log 9, log 12). -/

namespace Sys2Proof.Machine

/-- The host presents the word that the table's number stands for (log 9). -/
theorem State.withFetchWord_of_tableWord {nbits w : Nat} {pw : PortWord} (s : State) (h : tableWord nbits w = some pw) :
    s.withFetchWord nbits w = { s with input := .word pw :: s.input } := by
  simp only [withFetchWord, h]

/-- Settles O4: the step consumes the stimulus and applies the reset event. -/
theorem resetEventEmptiesAssembler : Obligations.ResetEventEmptiesAssembler := fun _ _ => step_reset

/-- Settles O5: a word presented, and none. -/
theorem stepRunsPresentedWord : Obligations.StepRunsPresentedWord :=
  ⟨fun _ _ _ => step_word, fun _ => step_idle⟩

/-- Settles O6: the step consumes the word that was put in front, so the operation runs in the original state. -/
theorem fetchWordRunsItsInstruction : Obligations.FetchWordRunsItsInstruction := by
  intro s nbits w i h
  obtain ⟨pw, hpw, rfl⟩ := Option.map_eq_some_iff.mp h
  rw [s.withFetchWord_of_tableWord hpw]
  exact step_word rfl

end Sys2Proof.Machine
end
